-- ==== Sys2Proof/Word.lean ====
section
/-! DEFINITION. The word types of the core: every value of the spec is an unsigned bit vector of a stated width
(`00_scope.md` R5, R8). -/

namespace Sys2Proof

/-- A register, a memory word, an instruction, an address on the bus: XLEN = 16 bits (R5). -/
abbrev Word := BitVec 16

/-- One of the two bytes of a word (R51). -/
abbrev Byte := BitVec 8

/-- A register index: 4 bits, every value valid (R20, R83). -/
abbrev RegIndex := BitVec 4

/-- An opcode nibble, `instr[3:0]` (R11). -/
abbrev Opcode := BitVec 4

/-- A byte mask: bit 0 selects the low byte, bit 1 the high byte (R10). -/
abbrev Mask := BitVec 2

end Sys2Proof
end

