-- ==== Sys2Proof/Machine/Bus.lean ====
section
/-! DEFINITION. The bus: the twelve-field tuple of `40_sequencer.md` R114 with its tagged variants, and the tuples of the
three evidenced instructions (`30_encoding.md` R86). The bus is not state (R32): a tuple is a constant of the dispatch
table. -/

namespace Sys2Proof

/-- The two phases in which a step uses the one memory address port (R59), named in fault records (R200). -/
inductive Phase where
  | fetch
  | data
  deriving DecidableEq, Repr

/-- Where a register address comes from: a field of the instruction or the fixed index 14 (R114, R115). -/
inductive RegAddrSrc where
  | r1
  | r2
  | r3
  | ip
  deriving DecidableEq, Repr

/-- Where the register write data comes from (R114, R118). -/
inductive RegDataSrc where
  | immLow
  | immHigh
  | memLowByte
  | memWord
  | alu
  deriving DecidableEq, Repr

/-- What drives the memory address in the data phase (R114, R119). -/
inductive MemAddrSrc where
  | ip
  | reg1
  deriving DecidableEq, Repr

/-- What drives the memory write data (R114, R120). -/
inductive MemDataSrc where
  | ip
  | reg2
  deriving DecidableEq, Repr

/-- The ALU operations: exactly ADD and OR (R144). -/
inductive AluOp where
  | add
  | or
  deriving DecidableEq, Repr

/-- Where an ALU operand comes from (R114, R117). -/
inductive AluDataSrc where
  | ip
  | reg1
  | reg2
  | const2
  deriving DecidableEq, Repr

/-- The bus tuple of R114, its fields in the spec's order. -/
structure BusTuple where
  regWe : Bool
  regWaddrSrc : RegAddrSrc
  regWdataSrc : RegDataSrc
  regRaddr1Src : RegAddrSrc
  regRaddr2Src : RegAddrSrc
  memWe : Bool
  memHalf : Bool
  memAddrSrc : MemAddrSrc
  memDataSrc : MemDataSrc
  aluOp : AluOp
  aluASrc : AluDataSrc
  aluBSrc : AluDataSrc
  deriving DecidableEq, Repr

/-- The tuple of LI (R86). -/
def BusTuple.li : BusTuple :=
  { regWe := true, regWaddrSrc := .r1, regWdataSrc := .immLow, regRaddr1Src := .r2, regRaddr2Src := .r3,
    memWe := false, memHalf := false, memAddrSrc := .ip, memDataSrc := .reg2,
    aluOp := .add, aluASrc := .ip, aluBSrc := .const2 }

/-- The tuple of LIH (R86). -/
def BusTuple.lih : BusTuple :=
  { regWe := true, regWaddrSrc := .r1, regWdataSrc := .immHigh, regRaddr1Src := .r2, regRaddr2Src := .r3,
    memWe := false, memHalf := false, memAddrSrc := .ip, memDataSrc := .reg2,
    aluOp := .add, aluASrc := .ip, aluBSrc := .const2 }

/-- The tuple of OR (R86). -/
def BusTuple.or : BusTuple :=
  { regWe := true, regWaddrSrc := .r1, regWdataSrc := .alu, regRaddr1Src := .r2, regRaddr2Src := .r3,
    memWe := false, memHalf := false, memAddrSrc := .ip, memDataSrc := .reg2,
    aluOp := .or, aluASrc := .reg1, aluBSrc := .reg2 }

end Sys2Proof
end

