-- ==== Sys2Proof/Config.lean ====
section
/-! DEFINITION. The implementation parameters of `00_scope.md` R5, as data a model takes as an argument, and the values
the spec leaves open as uninterpreted constants. The values of the reference configuration stand in
`Machine/Reference.lean`. -/

namespace Sys2Proof

/-- ODD_ADDR_POLICY (R5, R56): what an odd byte address does. -/
inductive OddAddrPolicy where
  | fault
  | ignoreBit0
  deriving DecidableEq, Repr

/-- MEM_LOW_BYTE_MODE (R5, R118): the register mask of the memory-low-byte data source. -/
inductive MemLowByteMode where
  | lowMask
  | zextFull
  deriving DecidableEq, Repr

/-- The parameters of R5. XLEN, NREGS, IP_INDEX and ADDR_WIDTH are fixed and stand in the types. -/
structure Config where
  /-- MEM_WORDS: the memory's capacity in words. -/
  memWords : Nat
  /-- OPC_LI. -/
  opcLi : Opcode
  /-- OPC_LIH. -/
  opcLih : Opcode
  /-- OPC_OR. -/
  opcOr : Opcode
  /-- EXTRA_DISPATCH: further opcodes with their bus tuples. -/
  extraDispatch : List (Opcode × BusTuple)
  /-- ODD_ADDR_POLICY. -/
  oddAddrPolicy : OddAddrPolicy
  /-- MEM_LOW_BYTE_MODE. -/
  memLowByteMode : MemLowByteMode
  deriving DecidableEq, Repr

/-- FREE VALUE. The 4-bit number of a phase in the `fault_info` signal of R240: the spec names the phases and numbers
neither (assumption log entry 8). -/
opaque Config.phaseCode : Phase → BitVec 4

/-- FREE VALUE. The address bits of `fault_info` for UnknownOpcode, whose record (R200) holds no address (assumption log
entry 8). -/
opaque Config.unknownOpcodeAddress : Opcode → Word → Word

/-- FREE VALUE. `fault_info` for an ImageTooLarge record: the length has no place in R240's layout (assumption log
entry 8). -/
opaque Config.imageTooLargeInfo : Nat → BitVec 36

/-- FREE VALUE. The `fault_code` signal of R240 while the core is not halted (assumption log entry 8). -/
opaque Config.idleFaultCode : BitVec 3

/-- FREE VALUE. The `fault_info` signal of R240 while the core is not halted (assumption log entry 8). -/
opaque Config.idleFaultInfo : BitVec 36

/-- FREE VALUE. The `dbg_mdata` signal of R240 at an address of its port that names no memory cell; there is one only where
MEM_WORDS is no power of two (assumption log entry 7). -/
opaque Config.absentWord : Nat → Word

end Sys2Proof
end

