-- ==== Sys2Proof/Machine/Reference.lean ====
section
/-! DEFINITION. The reference configuration: every parameter of `00_scope.md` R5 at its default. -/

namespace Sys2Proof

/-- This hardware's reference configuration (R5): 1024 words, LI = 0x1, LIH = 0x2, OR = 0x3, no extra dispatch entry,
an odd address faults, the memory-low-byte source writes with the low mask. -/
def Config.reference : Config :=
  { memWords := 1024, opcLi := 0x1, opcLih := 0x2, opcOr := 0x3, extraDispatch := [],
    oddAddrPolicy := .fault, memLowByteMode := .lowMask }

end Sys2Proof
end

