-- ==== Sys2Proof/Syntax.lean ====
section
/-! DEFINITION. The instructions of the core, one constructor per row of spec/opcode_table.json, and the fields every
instruction word carries (`30_encoding.md` R81, R84). -/

namespace Sys2Proof

/-- The three evidenced instructions (R84). `d` is the R1 field, `a` the R2 field, `b` the R3 field. -/
inductive Instr where
  /-- `LI Rd, imm` (R150). -/
  | li (d : RegIndex) (imm : Byte)
  /-- `LIH Rd, imm` (R151). -/
  | lih (d : RegIndex) (imm : Byte)
  /-- `OR Rd, Ra, Rb` (R160). -/
  | or (d a b : RegIndex)
  deriving DecidableEq, Repr

/-- The three register-index fields of a word; the immediate aliases R2 and R3 (R81). -/
structure Fields where
  r1 : RegIndex
  r2 : RegIndex
  r3 : RegIndex
  deriving DecidableEq, Repr

/-- Why the decoder rejects a word: its opcode nibble names no instruction (R87). -/
inductive DecodeError where
  | unknownOpcode (op : Opcode)
  deriving DecidableEq, Repr

end Sys2Proof
end

