-- ==== Sys2Proof/WellFormed.lean ====
section
/-! DEFINITION. Well-formed instructions and well-formed configurations. Every operand value of an instruction is legal
(`30_encoding.md` R83, R88), so the checks that can refuse something are those on the parameters (R5, R85). -/

namespace Sys2Proof

/-- Well-formed instructions: within an assigned opcode every value of the other 12 bits is legal (R83, R88), and the
operand types hold nothing else. -/
def Instr.wf : Instr → Bool
  | .li _ _ => true
  | .lih _ _ => true
  | .or _ _ _ => true

/-- MEM_WORDS is 1 to 32768 (R5). -/
def Config.capacityOk (c : Config) : Bool :=
  decide (1 ≤ c.memWords) && decide (c.memWords ≤ 32768)

/-- The three evidenced opcode values are distinct (R85). -/
def Config.opcodesDistinct (c : Config) : Bool :=
  c.opcLi != c.opcLih && c.opcLi != c.opcOr && c.opcLih != c.opcOr

/-- EXTRA_DISPATCH binds none of the evidenced opcodes (R85). -/
def Config.extraUnassigned (c : Config) : Bool :=
  c.extraDispatch.all fun e => e.1 != c.opcLi && e.1 != c.opcLih && e.1 != c.opcOr

/-- EXTRA_DISPATCH is a map: it binds no opcode twice (R5, R85). -/
def Config.extraIsMap (c : Config) : Bool :=
  decide (c.extraDispatch.map Prod.fst).Nodup

/-- A configuration the spec allows. -/
def Config.wf (c : Config) : Bool :=
  c.capacityOk && c.opcodesDistinct && c.extraUnassigned && c.extraIsMap

end Sys2Proof
end

