-- ==== Sys2Proof/Decode.lean ====
section
/-! DEFINITION. Fields of an instruction word, the dispatch table, the decoder and the encoder
(`30_encoding.md` R80 to R93). Every instruction is one 16-bit word (R80). -/

namespace Sys2Proof

/-- `opcode = instr[3:0]` (R81). -/
def opcodeField (w : Word) : Opcode := w.extractLsb' 0 4

/-- The fields R1 = `instr[7:4]`, R2 = `instr[11:8]`, R3 = `instr[15:12]` (R81). -/
def Fields.ofWord (w : Word) : Fields :=
  { r1 := w.extractLsb' 4 4, r2 := w.extractLsb' 8 4, r3 := w.extractLsb' 12 4 }

/-- `imm8 = instr[15:8]`: R3 is its high nibble, R2 its low nibble (R81). -/
def Fields.imm8 (f : Fields) : Byte := f.r3 ++ f.r2

/-- The fields of an RI word with destination `d` and immediate `imm` (R81). -/
def Fields.ofImm (d : RegIndex) (imm : Byte) : Fields :=
  { r1 := d, r2 := imm.extractLsb' 0 4, r3 := imm.extractLsb' 4 4 }

/-- The fields of an RRR word (R81). -/
def Fields.ofRegs (d a b : RegIndex) : Fields :=
  { r1 := d, r2 := a, r3 := b }

/-- DISPATCH (R85): the tuples of R86 at the three evidenced opcodes, EXTRA_DISPATCH's tuples at its own, `none` at every
other opcode. -/
def dispatch (c : Config) (op : Opcode) : Option BusTuple :=
  if op = c.opcLi then some .li
  else if op = c.opcLih then some .lih
  else if op = c.opcOr then some .or
  else c.extraDispatch.lookup op

/-- The instruction a word stands for, under the opcode assignment of `c` (R84, R87). -/
def decodeWith (c : Config) (w : Word) : Except DecodeError Instr :=
  let f := Fields.ofWord w
  if opcodeField w = c.opcLi then .ok (.li f.r1 f.imm8)
  else if opcodeField w = c.opcLih then .ok (.lih f.r1 f.imm8)
  else if opcodeField w = c.opcOr then .ok (.or f.r1 f.r2 f.r3)
  else .error (.unknownOpcode (opcodeField w))

/-- The decoder of the reference configuration. -/
def decode (w : Word) : Except DecodeError Instr := decodeWith Config.reference w

/-- The word of an instruction: the patterns `iiiiiiiidddd<opcode>` and `bbbbaaaadddd<opcode>` (R150, R151, R160). -/
def encodeWith (c : Config) : Instr → Word
  | .li d imm => imm ++ d ++ c.opcLi
  | .lih d imm => imm ++ d ++ c.opcLih
  | .or d a b => b ++ a ++ d ++ c.opcOr

/-- The encoder of the reference configuration (R93). -/
def encode (i : Instr) : Word := encodeWith Config.reference i

/-- The word the opcode table's bits stand for: one 16-bit word, every bit from `nbits` on being 0. -/
def tableWord (nbits w : Nat) : Word := BitVec.ofNat 16 (w % 2 ^ nbits)

/-- What the decoder reads from an instruction whose bits are `w` as spec/opcode_table.json numbers them. -/
def decodeTableWord (nbits w : Nat) : Option Instr :=
  match decode (tableWord nbits w) with
  | .ok i => some i
  | .error _ => none

end Sys2Proof
end

