-- ==== Sys2Proof/Machine/State.lean ====
section
/-! DEFINITION. The whole state of the core (`10_state.md` R37), its faults (`60_exceptions.md` R200) and the state after
reset (R36, R230). -/

namespace Sys2Proof.Machine

/-- The fault record of R205, a constructor for each kind of R200 that carries that kind's info; the code is `Fault.code`. -/
inductive Fault where
  /-- Code 1 (R201). Raised by decode: the opcode nibble has no dispatch entry. Safe: the core itself stops here. -/
  | unknownOpcode (op : Opcode) (ip : Word)
  /-- Code 2 (R202). Raised by the fetch or the data phase: the word index is MEM_WORDS or more. Safe: the spec itself
  strengthens the literal hardware to a stop (`93_implementation_defined.md` K1.5). -/
  | outOfBoundsAddress (addr : Word) (phase : Phase) (ip : Word)
  /-- Code 3 (R204). Raised by the host's image load, never by a step. Safe: no state exists after it. -/
  | imageTooLarge (len : Nat)
  /-- Code 4 (R203). Raised by the fetch or the data phase under ODD_ADDR_POLICY = fault: bit 0 of the address is 1. Safe:
  the spec itself strengthens the literal hardware to a stop (`93_implementation_defined.md` K1.6). -/
  | misalignedAddress (addr : Word) (phase : Phase) (ip : Word)
  deriving DecidableEq, Repr

/-- Why the model gives an instruction no meaning. -/
inductive Refusal where
  /-- Raised by an arm of `exec` whose instruction has no meaning in the model; no arm does. Safe: nothing is claimed of it. -/
  | notModelled (mnemonic : String)
  deriving DecidableEq, Repr

/-- The sixteen 16-bit cells of the register file (R20); cell 14 is the IP (R22). -/
abbrev RegFile := Vector Word 16

/-- Memory as its non-zero bytes, addresses strictly rising. The word of index `k` has its low byte at `2k` and its high
byte at `2k+1`: DESIGN CHOICE, assumption log entry 2. -/
abbrev Memory := List Host.Cell

/-- The complete architectural state (R37). -/
structure State where
  /-- The register file; `x[14]` is the IP (R20, R22). -/
  x : RegFile
  /-- The memory array (R33). -/
  mem : Memory
  /-- The instruction latch (R31). -/
  ir : Word
  /-- The fault status (R35). -/
  halted : Option Fault
  deriving DecidableEq, Repr

/-- The state right after reset with an empty image (R36, R230): every register 0, memory all zero, not halted. The
latch's reset value is unspecified (R31); 0 is the model's DESIGN CHOICE, assumption log entry 1. -/
def State.reset : State :=
  { x := Vector.replicate 16 0, mem := [], ir := 0, halted := none }

end Sys2Proof.Machine
end

