-- ==== Sys2Proof/Machine/Ops.lean ====
section
/-! DEFINITION. The named operations over bytes, registers and memory, the address check, the fetch, and entering a
fault. -/

namespace Sys2Proof.Machine

/-! ### Bytes and masks -/

/-- Bits [7:0] of a word (R51). -/
def lowByte (v : Word) : Byte := v.extractLsb' 0 8

/-- Bits [15:8] of a word (R51). -/
def highByte (v : Word) : Byte := v.extractLsb' 8 8

/-- `{high, low}` (R8, R51). -/
def wordOf (high low : Byte) : Word := high ++ low

/-- The byte merge of R10. -/
def merge (old new : Word) (m : Mask) : Word :=
  wordOf (if m.getLsbD 1 then highByte new else highByte old)
    (if m.getLsbD 0 then lowByte new else lowByte old)

/-- The mask 0b00, which writes nothing (R10). -/
def maskNone : Mask := 0b00

/-- The mask 0b01, the low byte (R10). -/
def maskLow : Mask := 0b01

/-- The mask 0b10, the high byte (R10). -/
def maskHigh : Mask := 0b10

/-- The mask 0b11, both bytes (R10). -/
def maskBoth : Mask := 0b11

/-! ### The register file -/

/-- The index of the instruction pointer, IP_INDEX = 14 (R5, R22). -/
def ipIndex : RegIndex := 14

/-- A read port: every index reads, the IP's included (R23). -/
def State.reg (s : State) (i : RegIndex) : Word := s.x.get i.toFin

/-- The IP, register 14 (R22). -/
def State.ip (s : State) : Word := s.reg ipIndex

/-- Replace one register cell. -/
def State.setReg (s : State) (i : RegIndex) (v : Word) : State :=
  { s with x := s.x.set i.toNat v i.isLt }

/-- The masked write port: the addressed cell becomes `merge(old, data, mask)` (R24, R123). -/
def State.writePort (s : State) (i : RegIndex) (v : Word) (m : Mask) : State :=
  s.setReg i (merge (s.reg i) v m)

/-- The instruction latch takes the fetched word (R31, R113). -/
def State.latch (s : State) (w : Word) : State := { s with ir := w }

/-! ### The memory array -/

/-- What a byte no write has touched reads as: memory outside the image is zero-filled (R36). -/
def Memory.unlisted : Byte := 0

/-- The canonical form: addresses strictly rising, no entry that an unlisted address would read as. -/
def Memory.wf : Memory → Bool
  | [] => true
  | (k, b) :: m => (b != Memory.unlisted) && m.all (fun c => decide (k < c.1)) && Memory.wf m

/-- Every listed byte lies in the array of `words` words. -/
def Memory.within (m : Memory) (words : Nat) : Bool :=
  m.all fun c => decide (c.1 < 2 * words)

/-- Read one byte. -/
def Memory.readByte : Memory → Nat → Byte
  | [], _ => Memory.unlisted
  | (k, b) :: m, a => if a = k then b else Memory.readByte m a

/-- Write one byte, keeping the canonical form. -/
def Memory.writeByte : Memory → Nat → Byte → Memory
  | [], a, v => if v = Memory.unlisted then [] else [(a, v)]
  | (k, b) :: m, a, v =>
    if a < k then
      if v = Memory.unlisted then (k, b) :: m else (a, v) :: (k, b) :: m
    else if a = k then
      if v = Memory.unlisted then m else (a, v) :: m
    else (k, b) :: Memory.writeByte m a v

/-- The word index a byte address selects, `a >> 1` (R55). -/
def wordIndex (a : Word) : Nat := (a >>> 1).toNat

/-- The memory cell of word index `k` (R33). -/
def Memory.word (m : Memory) (k : Nat) : Word :=
  wordOf (m.readByte (2 * k + 1)) (m.readByte (2 * k))

/-- Replace the memory cell of word index `k`. -/
def Memory.setWord (m : Memory) (k : Nat) (v : Word) : Memory :=
  Memory.writeByte (Memory.writeByte m (2 * k) (lowByte v)) (2 * k + 1) (highByte v)

/-- The word a byte address names (R55, R58). -/
def Memory.read (m : Memory) (a : Word) : Word := m.word (wordIndex a)

/-- The masked write of R60: a mask of 0b00 is a no-op. -/
def Memory.write (m : Memory) (a v : Word) (k : Mask) : Memory :=
  if k = maskNone then m else m.setWord (wordIndex a) (merge (m.read a) v k)

/-! ### Checking an address -/

/-- An address the policy does not accept: bit 0 is 1 under ODD_ADDR_POLICY = fault (R56). -/
def misaligned (c : Config) (a : Word) : Bool :=
  a.getLsbD 0 && decide (c.oddAddrPolicy = .fault)

/-- An address outside the array: its word index is MEM_WORDS or more (R57). -/
def outOfRange (c : Config) (a : Word) : Bool :=
  decide (c.memWords ≤ wordIndex a)

/-- `check_addr` (R56, R57, R209): alignment before bounds; the fault it raises, if any. -/
def checkAddr (c : Config) (a : Word) (ph : Phase) (ip : Word) : Option Fault :=
  if misaligned c a then some (.misalignedAddress a ph ip)
  else if outOfRange c a then some (.outOfBoundsAddress a ph ip)
  else none

/-! ### The fetch -/

/-- The fetch phase (R113): the word at the IP, or the fault of its address. -/
def fetch (c : Config) (s : State) : Except Fault Word :=
  match checkAddr c s.ip .fetch s.ip with
  | some f => .error f
  | none => .ok (s.mem.read s.ip)

/-- The fault of a word the decoder rejects (R201): it names the opcode and the IP. -/
def undecodable (s : State) : DecodeError → Fault
  | .unknownOpcode op => .unknownOpcode op s.ip

/-! ### Entering a fault

There is no handler and no return (R208): a fault commits nothing and halts the core (R206, R207). -/

/-- The numeric code of a fault (R200). -/
def Fault.code : Fault → Nat
  | .unknownOpcode _ _ => 1
  | .outOfBoundsAddress _ _ _ => 2
  | .imageTooLarge _ => 3
  | .misalignedAddress _ _ _ => 4

/-- The IP a fault record holds (R200); ImageTooLarge holds none. -/
def Fault.recordIp : Fault → Option Word
  | .unknownOpcode _ ip => some ip
  | .outOfBoundsAddress _ _ ip => some ip
  | .imageTooLarge _ => none
  | .misalignedAddress _ _ ip => some ip

/-- `raise` (R9, R206): end the step with the fault; nothing of the step is committed. -/
def raise (f : Fault) : Host.Outcome State Fault Refusal := .fault f

/-- The state after a fault (R206): everything keeps its start-of-step value and `halted` becomes the record. -/
def State.halt (s : State) (f : Fault) : State := { s with halted := some f }

/-! ### Placing one instruction where the fetch reads it -/

/-- Put the core where its next step fetches at an address that exists: not halted, and at address 0 if the IP cannot be
fetched from. -/
def State.fetchable (c : Config) (s : State) : State :=
  match checkAddr c s.ip .fetch s.ip with
  | some _ => { s with halted := none }.setReg ipIndex 0
  | none => { s with halted := none }

/-- Store a word at the address the next step fetches from. -/
def State.placeAtIp (s : State) (w : Word) : State :=
  { s with mem := s.mem.setWord (wordIndex s.ip) w }

end Sys2Proof.Machine
end

