-- ==== Sys2Proof/Machine/Flags.lean ====
section
/-! DEFINITION. The ALU (`41_alu.md` R140 to R145): ADD, OR and the combinational zero flag, the only flag (R28). -/

namespace Sys2Proof.Machine

/-- The ALU's outputs (R140). The zero flag is never stored (R28, R143). -/
structure AluOut where
  res : Word
  zero : Bool
  deriving DecidableEq, Repr

/-- `zero = (res == 0)` (R143). -/
def zeroFlag (res : Word) : Bool := res == 0

/-- The 16-bit result: ADD modulo 2^16 (R141), bitwise OR (R142). -/
def aluResult (op : AluOp) (a b : Word) : Word :=
  match op with
  | .add => a + b
  | .or => a ||| b

/-- `ALU(op, a, b)` (R140). -/
def alu (op : AluOp) (a b : Word) : AluOut :=
  { res := aluResult op a b, zero := zeroFlag (aluResult op a b) }

end Sys2Proof.Machine
end

