-- ==== Sys2Proof/Machine/Operands.lean ====
section
/-! DEFINITION. The routing selections of `40_sequencer.md`: register addresses, ALU operands, memory address, data and
mask, and the register write data with its mask (R61, R115 to R120). -/

namespace Sys2Proof.Machine

/-- `regaddr` (R83, R115): one four-way choice for both read ports and the write port. -/
def regAddr (f : Fields) : RegAddrSrc → RegIndex
  | .r1 => f.r1
  | .r2 => f.r2
  | .r3 => f.r3
  | .ip => ipIndex

/-- `opnd` (R117). -/
def aluOperand (ip v1 v2 : Word) : AluDataSrc → Word
  | .ip => ip
  | .reg1 => v1
  | .reg2 => v2
  | .const2 => 0x0002

/-- The data-phase address (R119). -/
def memAddr (ip v1 : Word) : MemAddrSrc → Word
  | .ip => ip
  | .reg1 => v1

/-- The data a memory write presents (R120). -/
def memData (ip v2 : Word) : MemDataSrc → Word
  | .ip => ip
  | .reg2 => v2

/-- `memmask` (R61). -/
def memMask (we half : Bool) : Mask :=
  if we then (if half then maskLow else maskBoth) else maskNone

/-- Whether a register data source reads memory (R121). -/
def readsMemory : RegDataSrc → Bool
  | .memLowByte => true
  | .memWord => true
  | .immLow => false
  | .immHigh => false
  | .alu => false

/-- The data of a register write (R82, R118). -/
def regWriteData (imm8 : Byte) (mword res : Word) : RegDataSrc → Word
  | .immLow => imm8.setWidth 16
  | .immHigh => wordOf imm8 0
  | .memLowByte => (lowByte mword).setWidth 16
  | .memWord => mword
  | .alu => res

/-- The mask of a register write, which its data source selects (R82, R118). -/
def regWriteMask (c : Config) : RegDataSrc → Mask
  | .immLow => maskLow
  | .immHigh => maskHigh
  | .memLowByte => (match c.memLowByteMode with | .lowMask => maskLow | .zextFull => maskBoth)
  | .memWord => maskBoth
  | .alu => maskBoth

end Sys2Proof.Machine
end

