-- ==== Sys2Proof/Machine/Sequencer.lean ====
section
/-! DEFINITION. The common step every instruction goes through (`40_sequencer.md` R111): the signals of one cycle, the
data-phase check, the commit, and the step of a core with any parameters. -/

namespace Sys2Proof.Machine

/-- The signals of one cycle, each computed from start-of-step values (R112). -/
structure Signals where
  ip : Word
  v1 : Word
  v2 : Word
  alu : AluOut
  maddr : Word
  mmask : Mask
  mdata : Word
  needsRead : Bool
  waddr : RegIndex
  wdata : Word
  wmask : Mask
  /-- `reg_we` with a mask that is not 0b00 (R123). -/
  writesReg : Bool
  deriving DecidableEq, Repr

/-- Register read, ALU, memory routing and register write data of a tuple (R115 to R121). Where the step does not use the
memory read, `wdata` does not depend on it or is not committed (R121). -/
def signals (c : Config) (b : BusTuple) (f : Fields) (s : State) : Signals :=
  let v1 := s.reg (regAddr f b.regRaddr1Src)
  let v2 := s.reg (regAddr f b.regRaddr2Src)
  let out := alu b.aluOp (aluOperand s.ip v1 v2 b.aluASrc) (aluOperand s.ip v1 v2 b.aluBSrc)
  let maddr := memAddr s.ip v1 b.memAddrSrc
  { ip := s.ip, v1 := v1, v2 := v2, alu := out, maddr := maddr,
    mmask := memMask b.memWe b.memHalf
    mdata := memData s.ip v2 b.memDataSrc
    needsRead := b.regWe && readsMemory b.regWdataSrc
    waddr := regAddr f b.regWaddrSrc
    wdata := regWriteData f.imm8 (s.mem.read maddr) out.res b.regWdataSrc
    wmask := regWriteMask c b.regWdataSrc
    writesReg := b.regWe && (regWriteMask c b.regWdataSrc != maskNone) }

/-- Whether the data phase is used (R121). -/
def Signals.usesData (g : Signals) : Bool :=
  g.needsRead || (g.mmask != maskNone)

/-- The check of the data phase (R121): an unused address is not checked. -/
def dataFault (c : Config) (g : Signals) : Option Fault :=
  if g.usesData then checkAddr c g.maddr .data g.ip else none

/-- The register write and the IP at the end of the step (R123, R124, R125): a write to register 14 replaces the
advance. -/
def commitRegs (g : Signals) (s : State) : State :=
  if g.writesReg then
    if g.waddr = ipIndex then s.writePort g.waddr g.wdata g.wmask
    else (s.writePort g.waddr g.wdata g.wmask).setReg ipIndex (g.ip + 2)
  else s.setReg ipIndex (g.ip + 2)

/-- The memory write at the end of the step (R122). -/
def commitMem (g : Signals) (s : State) : State :=
  { s with mem := s.mem.write g.maddr g.mdata g.mmask }

/-- All writes of the step, each from start-of-step values (R126). -/
def commit (g : Signals) (s : State) : State := commitRegs g (commitMem g s)

/-- R111 from the register read on: what a step with this tuple does. -/
def runBus (c : Config) (b : BusTuple) (f : Fields) (s : State) : Host.Outcome State Fault Refusal :=
  match dataFault c (signals c b f s) with
  | some flt => raise flt
  | none => .next (commit (signals c b f s) s)

/-- The step of R111 for a core with the parameters `c`: the dispatch table's tuple run on the fetched word. -/
def stepWith (c : Config) (s : State) : Host.Outcome State Fault Refusal :=
  match s.halted with
  | some flt => raise flt
  | none =>
    match fetch c s with
    | .error flt => raise flt
    | .ok w =>
      match dispatch c (opcodeField w) with
      | none => raise (.unknownOpcode (opcodeField w) s.ip)
      | some b => runBus c b (Fields.ofWord w) (s.latch w)

end Sys2Proof.Machine
end

