-- ==== Sys2Proof/Machine/ImmediateLoads.lean ====
section
/-! DEFINITION. The immediate loads (`42_immediate_loads.md`): each is its bus tuple (R86) run through the common step. -/

namespace Sys2Proof.Machine

/-- LI (R150): the immediate into the low byte of register `d`. -/
def execLi (d : RegIndex) (imm : Byte) (s : State) : Host.Outcome State Fault Refusal :=
  runBus Config.reference .li (.ofImm d imm) s

/-- LIH (R151): the immediate into the high byte of register `d`. -/
def execLih (d : RegIndex) (imm : Byte) (s : State) : Host.Outcome State Fault Refusal :=
  runBus Config.reference .lih (.ofImm d imm) s

end Sys2Proof.Machine
end

