-- ==== Sys2Proof/Machine/RegisterAlu.lean ====
section
/-! DEFINITION. The register ALU instruction (`43_register_alu.md`): its bus tuple (R86) run through the common step. -/

namespace Sys2Proof.Machine

/-- OR (R160): register `d` takes `x[a] | x[b]`; with `d` = 14 it is a jump (R161). -/
def execOr (d a b : RegIndex) (s : State) : Host.Outcome State Fault Refusal :=
  runBus Config.reference .or (.ofRegs d a b) s

end Sys2Proof.Machine
end

