-- ==== Sys2Proof/Machine/Step.lean ====
section
/-! DEFINITION. One step of the reference core: fetch at the IP, latch, decode, run (`40_sequencer.md` R110, R111). -/

namespace Sys2Proof.Machine

/-- One fetch-decode-execute cycle. A halted core reports its fault again (R207); a fault is the typed result of the step
and commits nothing (R205, R206). The state after it is `State.halt`: DESIGN CHOICE, assumption log entry 3. -/
def step (s : State) : Host.Outcome State Fault Refusal :=
  match s.halted with
  | some flt => raise flt
  | none =>
    match fetch Config.reference s with
    | .error flt => raise flt
    | .ok w =>
      match decode w with
      | .error e => raise (undecodable s e)
      | .ok i => exec i (s.latch w)

/-- `s` with the word of spec/opcode_table.json's bits placed where the next step fetches, so that it runs exactly that
word. It stands for the host's image load (R236): DESIGN CHOICE, assumption log entry 4. -/
def State.withFetchWord (s : State) (nbits w : Nat) : State :=
  (s.fetchable Config.reference).placeAtIp (tableWord nbits w)

end Sys2Proof.Machine
end

