-- ==== Sys2Proof/Machine/HostPort.lean ====
section
/-! DEFINITION. The host control surface (`70_reset_and_hazards.md` R233 to R239): loading an image, `reset()`, `step()`,
`run(n)` and the read-only accessors, for a core with any parameters. -/

namespace Sys2Proof.Machine

/-- Place image word `k` in memory cell `k`, from cell `k` upwards (R52, R236). -/
def imageMem : Nat → List Word → Memory → Memory
  | _, [], m => m
  | k, w :: ws, m => imageMem (k + 1) ws (m.setWord k w)

/-- The reset state with an image loaded at word 0 and zeros after it (R36, R230, R236). -/
def resetTo (image : List Word) : State :=
  { State.reset with mem := imageMem 0 image [] }

/-- The image load (R204, R236): an image longer than MEM_WORDS is rejected and makes no state. -/
def loadImage (c : Config) (image : List Word) : Except Fault State :=
  if c.memWords < image.length then .error (.imageTooLarge image.length)
  else .ok (resetTo image)

/-- `step()` (R234): the state after the cycle and `none` for ok or the fault record. A fault commits nothing and
halts (R206); a halted core changes nothing and reports its fault again (R207). -/
def hostStep (c : Config) (s : State) : State × Option Fault :=
  match stepWith c s with
  | .next t => (t, none)
  | .fault f => (s.halt f, some f)
  | .refused _ => (s, none)

/-- `run(n)` (R235): up to `n` steps, stopping at the first fault, which it returns. -/
def hostRun (c : Config) : Nat → State → State × Option Fault
  | 0, s => (s, none)
  | n + 1, s =>
    match hostStep c s with
    | (t, none) => hostRun c n t
    | (t, some f) => (t, some f)

/-- The core with the image its host last loaded, which `reset()` reloads (R230). -/
structure Session where
  image : List Word
  core : State
  deriving DecidableEq, Repr

/-- Load an image (R236): accepted, the core is reset with it; rejected, no state changes. -/
def Session.load (c : Config) (image : List Word) (h : Session) : Session × Option Fault :=
  match loadImage c image with
  | .ok s => ({ image := image, core := s }, none)
  | .error f => (h, some f)

/-- `reset()` (R230): back to the reset state, memory reloaded from the image last loaded. -/
def Session.reset (h : Session) : Session := { h with core := resetTo h.image }

/-- `step()` on a session (R234). -/
def Session.step (c : Config) (h : Session) : Session × Option Fault :=
  ({ h with core := (hostStep c h.core).1 }, (hostStep c h.core).2)

/-- `run(n)` on a session (R235). -/
def Session.run (c : Config) (n : Nat) (h : Session) : Session × Option Fault :=
  ({ h with core := (hostRun c n h.core).1 }, (hostRun c n h.core).2)

/-- The register accessor (R239). -/
def Session.readReg (h : Session) (i : RegIndex) : Word := h.core.reg i

/-- The memory accessor (R239): the word of index `k`; an index outside the array names no cell (R64). -/
def Session.readMem (c : Config) (h : Session) (k : Nat) : Option Word :=
  if k < c.memWords then some (h.core.mem.word k) else none

/-- The `halted` accessor (R239). -/
def Session.readHalted (h : Session) : Option Fault := h.core.halted

end Sys2Proof.Machine
end

