-- ==== Sys2Proof/Machine/Block.lean ====
section
/-! DEFINITION. The abstract block interface of `70_reset_and_hazards.md` R240, for a core with any parameters: the width
of its address ports, what an active clock edge does and what the output signals show. The spec calls it not normative for
behaviour (`92_eei_decisions.md` D19). -/

namespace Sys2Proof.Machine

/-- The width of `load_addr` and `dbg_maddr`: `log2 MEM_WORDS` (R240), rounded up where MEM_WORDS is no power of two
(DESIGN CHOICE, assumption log entry 7), so that every cell has an address. -/
def addrBits (c : Config) : Nat :=
  if 2 ^ Nat.log2 c.memWords = c.memWords then Nat.log2 c.memWords else Nat.log2 c.memWords + 1

/-- The input signals at an active clock edge (R240). -/
structure BlockIn (c : Config) where
  rst : Bool
  loadEn : Bool
  loadAddr : BitVec (addrBits c)
  loadData : Word
  deriving DecidableEq, Repr

/-- The core with whether the last edge had `rst` = 1: the first edge of a reset clears memory (DESIGN CHOICE), the following ones load it
(assumption log entry 7). -/
structure Block where
  core : State
  inReset : Bool
  deriving DecidableEq, Repr

/-- The load port, used only while `rst` = 1 (R240). An address that names no cell loads nothing (DESIGN CHOICE, assumption
log entry 7). -/
def loadPort (c : Config) (i : BlockIn c) (s : State) : State :=
  if i.loadEn && decide (i.loadAddr.toNat < c.memWords) then
    { s with mem := s.mem.setWord i.loadAddr.toNat i.loadData }
  else s

/-- One active edge of `clk` (R240): reset with the load port while `rst` = 1, else one step (R234). -/
def Block.edge (c : Config) (i : BlockIn c) (b : Block) : Block :=
  if i.rst then
    { core := loadPort c i (if b.inReset then b.core else State.reset), inReset := true }
  else { core := (hostStep c b.core).1, inReset := false }

/-- A sequence of edges, first to last. -/
def Block.edges (c : Config) : List (BlockIn c) → Block → Block
  | [], b => b
  | i :: is, b => Block.edges c is (b.edge c i)

/-- The edges by which the host writes an image through the load port from word `k` on (R236, R240). -/
def loadEdges (c : Config) : Nat → List Word → List (BlockIn c)
  | _, [] => []
  | k, w :: ws =>
    { rst := true, loadEn := true, loadAddr := BitVec.ofNat (addrBits c) k, loadData := w } ::
      loadEdges c (k + 1) ws

/-- `dbg_rdata` (R240). -/
def Block.dbgRdata (b : Block) (addr : RegIndex) : Word := b.core.reg addr

/-- `dbg_mdata` (R240): the addressed word; free at an address that names no cell (assumption log entry 7). -/
def Block.dbgMdata (c : Config) (b : Block) (addr : BitVec (addrBits c)) : Word :=
  if addr.toNat < c.memWords then b.core.mem.word addr.toNat else Config.absentWord addr.toNat

/-- `halted` (R240). -/
def Block.haltedOut (b : Block) : Bool := b.core.halted.isSome

/-- `fault_code`, the code of R200; free while not halted (assumption log entry 8). -/
def Block.faultCode (b : Block) : BitVec 3 :=
  match b.core.halted with
  | some f => BitVec.ofNat 3 f.code
  | none => Config.idleFaultCode

/-- The info layout of R240: opcode or phase in 4 bits, address in 16, IP in 16. -/
def faultInfoWord (tag : BitVec 4) (addr ip : Word) : BitVec 36 := tag ++ addr ++ ip

/-- `fault_info`; what R240 leaves open in it is free (assumption log entry 8). -/
def Block.faultInfo (b : Block) : BitVec 36 :=
  match b.core.halted with
  | some (.unknownOpcode op ip) => faultInfoWord op (Config.unknownOpcodeAddress op ip) ip
  | some (.outOfBoundsAddress a ph ip) => faultInfoWord (Config.phaseCode ph) a ip
  | some (.misalignedAddress a ph ip) => faultInfoWord (Config.phaseCode ph) a ip
  | some (.imageTooLarge n) => Config.imageTooLargeInfo n
  | none => Config.idleFaultInfo

end Sys2Proof.Machine
end

