-- ==== Sys2Proof/Machine/Routes.lean ====
section
/-! DEFINITION. The bus tuples of `44_unbound_routes.md`: routes the datapath carries and no evidenced opcode selects.
None of them is an instruction (R170). They run only in a configuration whose EXTRA_DISPATCH binds one; the default core
has none. Where R171 to R178 leave a field of a tuple open, DESIGN CHOICE: the field takes a value without effect; assumption
log entry 9. -/

namespace Sys2Proof

/-- route-LW (R171): a word load from the address in the R2-addressed register into the R1-addressed one. -/
def BusTuple.routeLW : BusTuple :=
  { regWe := true, regWaddrSrc := .r1, regWdataSrc := .memWord, regRaddr1Src := .r2, regRaddr2Src := .r3,
    memWe := false, memHalf := false, memAddrSrc := .reg1, memDataSrc := .reg2,
    aluOp := .add, aluASrc := .ip, aluBSrc := .const2 }

/-- route-LB (R172): as route-LW with the low-byte data source. -/
def BusTuple.routeLB : BusTuple :=
  { BusTuple.routeLW with regWdataSrc := .memLowByte }

/-- route-SW (R173): a word store of read port 2 to the address on read port 1. -/
def BusTuple.routeSW : BusTuple :=
  { regWe := false, regWaddrSrc := .r1, regWdataSrc := .immLow, regRaddr1Src := .r2, regRaddr2Src := .r3,
    memWe := true, memHalf := false, memAddrSrc := .reg1, memDataSrc := .reg2,
    aluOp := .add, aluASrc := .ip, aluBSrc := .const2 }

/-- route-SB (R174): as route-SW with the half mask. -/
def BusTuple.routeSB : BusTuple :=
  { BusTuple.routeSW with memHalf := true }

/-- route-store-IP (R175): a word store whose data is the IP. -/
def BusTuple.routeStoreIP : BusTuple :=
  { BusTuple.routeSW with memDataSrc := .ip }

/-- route-IP-addressed load (R176): a word load of the current instruction's own word. -/
def BusTuple.routeLoadOwnWord : BusTuple :=
  { BusTuple.routeLW with memAddrSrc := .ip }

/-- route-IP-addressed store (R176): a word store over the current instruction's own word. -/
def BusTuple.routeStoreOwnWord : BusTuple :=
  { BusTuple.routeSW with memAddrSrc := .ip }

/-- route-ADD (R177) with its two operand sources and its destination source. -/
def BusTuple.routeAdd (dst : RegAddrSrc) (a b : AluDataSrc) : BusTuple :=
  { regWe := true, regWaddrSrc := dst, regWdataSrc := .alu, regRaddr1Src := .r2, regRaddr2Src := .r3,
    memWe := false, memHalf := false, memAddrSrc := .ip, memDataSrc := .reg2,
    aluOp := .add, aluASrc := a, aluBSrc := b }

/-- A combined route (R178): one tuple that loads a word into a register and stores a word at the same address. -/
def BusTuple.routeSwap : BusTuple :=
  { BusTuple.routeLW with memWe := true }

/-- The tuple that writes neither a register nor memory (R178): a no-op that advances the IP by 2. -/
def BusTuple.routeNop : BusTuple :=
  { BusTuple.routeSW with memWe := false }

end Sys2Proof
end

