-- ==== Sys2Proof/Safety.lean ====
section
/-! DEFINITION. The terms the statements use: the invariant of the state, where a step of the reference core completes, and
what a run that never faults is. -/

namespace Sys2Proof

open Sys2Proof.Machine

/-- The invariant of the stored memory: canonical, and every listed byte in the array (R33, R64). -/
def Machine.State.wf (c : Config) (s : State) : Bool :=
  s.mem.wf && s.mem.within c.memWords

/-- The IP holds an even address (R26). -/
def Machine.State.evenIp (s : State) : Bool := !s.ip.getLsbD 0

/-- The core is running and its next fetch reads `w` (R113). -/
def Machine.State.Fetches (c : Config) (s : State) (w : Word) : Prop :=
  s.halted = none ∧ fetch c s = .ok w

/-- The frame of a step that stores nothing and writes at most register `d` beside the IP: every other register, every byte
of memory, the latch and the fault status are as before. What register 14 becomes is said beside it. -/
def OnlyRegister (d : RegIndex) (s t : State) : Prop :=
  (∀ r, r ≠ d → r ≠ ipIndex → t.reg r = s.reg r) ∧
  (∀ a, t.mem.readByte a = s.mem.readByte a) ∧ t.mem = s.mem ∧ t.ir = s.ir ∧ t.halted = s.halted

/-- The frame of a step that stores in the word a byte address names and writes no register but the IP. -/
def OnlyWord (addr : Word) (s t : State) : Prop :=
  (∀ r, r ≠ ipIndex → t.reg r = s.reg r) ∧
  (∀ a, a ≠ 2 * wordIndex addr → a ≠ 2 * wordIndex addr + 1 → t.mem.readByte a = s.mem.readByte a) ∧
  (∀ k, k ≠ wordIndex addr → t.mem.word k = s.mem.word k) ∧ t.ir = s.ir ∧ t.halted = s.halted

/-- The next step of the core in `t` stops with the fault of its fetch address, if that address has one (R56, R57). -/
def BadIpFaultsNext (t : State) : Prop :=
  ∀ f, t.halted = none → checkAddr Config.reference t.ip .fetch t.ip = some f → step t = .fault f

/-- A safe step of the reference core: it answers a next state. -/
def SafeStep (s : State) : Prop := ∃ t, step s = .next t

/-- The states after `n` host steps, whatever they report (R234). -/
def stateAfter (c : Config) : Nat → State → State
  | 0, s => s
  | n + 1, s => stateAfter c n (hostStep c s).1

/-- A safe run of `n` steps of the reference core: no step of it faults. -/
def SafeRun (n : Nat) (s : State) : Prop := ∃ t, Host.Core.run core n s = .next t

end Sys2Proof
end

