-- ==== Sys2Proof/Certificates/Slice0/Obligations.lean ====
section
/-! DEFINITION. The statements for the provers. Each docstring names the rule of spec/ the statement formalises. -/

open Sys2Proof Sys2Proof.Machine

/-! ### The instructions -/

/-- R150. LI completes in every state: the low byte of `Rd` is the immediate, its high byte is kept; the IP advances by 2, or
with `d` = 14 takes the merged value; nothing else changes. Its word is the pattern `iiiiiiiidddd` with OPC_LI. A bad address in
the IP faults at the next fetch. -/
def Obligations.LiWritesLowByteAndKeepsHighByte : Prop :=
  ∀ (d : RegIndex) (imm : Byte) (s : State),
    (∀ c : Config, encodeWith c (.li d imm) = imm ++ d ++ c.opcLi) ∧
    ∃ t, exec (.li d imm) s = .next t ∧
      t.reg d = wordOf (highByte (s.reg d)) imm ∧
      (d ≠ ipIndex → t.ip = s.ip + 2) ∧
      (d = ipIndex → t.ip = wordOf (highByte s.ip) imm) ∧
      OnlyRegister d s t ∧ BadIpFaultsNext t

/-- R151. LIH completes in every state: the high byte of `Rd` is the immediate, its low byte is kept; the IP as for LI. Its word
is the pattern `iiiiiiiidddd` with OPC_LIH. LI and LIH on one register in either order give `{hi, lo}`. (That the opcode exists is
the spec's decision D3.) -/
def Obligations.LihWritesHighByteAndKeepsLowByte : Prop :=
  ∀ (d : RegIndex) (imm : Byte) (s : State),
    (∀ c : Config, encodeWith c (.lih d imm) = imm ++ d ++ c.opcLih) ∧
    (∃ t, exec (.lih d imm) s = .next t ∧
      t.reg d = wordOf imm (lowByte (s.reg d)) ∧
      (d ≠ ipIndex → t.ip = s.ip + 2) ∧
      (d = ipIndex → t.ip = wordOf imm (lowByte s.ip)) ∧
      OnlyRegister d s t ∧ BadIpFaultsNext t) ∧
    (∀ lo : Byte, ∃ t u v w,
      exec (.li d lo) s = .next t ∧ exec (.lih d imm) t = .next u ∧ u.reg d = wordOf imm lo ∧
      exec (.lih d imm) s = .next v ∧ exec (.li d lo) v = .next w ∧ w.reg d = wordOf imm lo)

/-- R160. OR completes in every state: `Rd` takes the OR of the start-of-step values of `Ra` and `Rb` (register 14 reads as
the instruction's own address); the IP advances by 2, or with `d` = 14 takes the result; nothing else changes. `OR IP, IP, IP`
changes nothing, `OR Rd, Rd, Rd` changes only the IP. A bad result in the IP faults at the next fetch, not here.
(That the sources are the R2 and R3 fields is the spec's decision D4.) -/
def Obligations.OrWritesUnionOfStartValues : Prop :=
  ∀ (d a b : RegIndex) (s : State),
    (∀ c : Config, encodeWith c (.or d a b) = b ++ a ++ d ++ c.opcOr) ∧
    (∃ t, exec (.or d a b) s = .next t ∧
      t.reg d = s.reg a ||| s.reg b ∧
      (d ≠ ipIndex → t.ip = s.ip + 2) ∧
      (d = ipIndex → t.ip = s.reg a ||| s.reg b) ∧
      OnlyRegister d s t ∧ BadIpFaultsNext t) ∧
    exec (.or ipIndex ipIndex ipIndex) s = .next s ∧
    (d ≠ ipIndex → ∃ t, exec (.or d d d) s = .next t ∧ t.ip = s.ip + 2 ∧ OnlyRegister ipIndex s t)

/-- From R152. LI and LIH set a register to any 16-bit value, whatever it held, and the order does not show: both orders end in
the same state. -/
def Obligations.LoadConstantInEitherOrderSameState : Prop :=
  ∀ (d : RegIndex) (v : Word) (s : State), ∃ t t' u,
    exec (.li d (lowByte v)) s = .next t ∧ exec (.lih d (highByte v)) t = .next u ∧
    exec (.lih d (highByte v)) s = .next t' ∧ exec (.li d (lowByte v)) t' = .next u ∧
    u.reg d = v

/-- From R161 and R242. The jump idiom `OR IP, Rs, Rs`: its word, its target exactly `x[s]`, no other effect (no link), and the
very next step fetches at the target (no delay slot). -/
def Obligations.JumpIdiomFetchesNextAtTarget : Prop :=
  ∀ (r : RegIndex) (s : State),
    (encode (.or ipIndex r r)).toNat = r.toNat * 4096 + r.toNat * 256 + 0x00E3 ∧
    ∃ t, exec (.or ipIndex r r) s = .next t ∧ t.ip = s.reg r ∧ OnlyRegister ipIndex s t ∧
      (∀ w, s.halted = none → checkAddr Config.reference (s.reg r) .fetch (s.reg r) = none →
        s.mem.read (s.reg r) = w → t.Fetches Config.reference w)

/-- From R162. `OR Rd, IP, IP` with `d` other than 14 stores the instruction's own address, not the next one's. -/
def Obligations.OrOfIpStoresOwnAddress : Prop :=
  ∀ (d : RegIndex) (s : State), d ≠ ipIndex →
    ∃ t, exec (.or d ipIndex ipIndex) s = .next t ∧ t.reg d = s.ip ∧ t.reg d ≠ t.ip ∧ OnlyRegister d s t

/-- From R238. A fetched `OR IP, IP, IP` is a steady state: after one step, every further step and every run of any length
changes nothing. -/
def Obligations.SelfLoopIsSteady : Prop :=
  ∀ (s : State) (w : Word), s.Fetches Config.reference w → decode w = .ok (.or ipIndex ipIndex ipIndex) →
    step s = .next (s.latch w) ∧ step (s.latch w) = .next (s.latch w) ∧
    ∀ n, hostRun Config.reference n (s.latch w) = (s.latch w, none) ∧ SafeRun n (s.latch w)

/-! ### Decoding and encoding -/

/-- From R85 and R93. Under every opcode assignment the spec allows, decoding an encoded instruction gives it back. -/
def Obligations.DecodeOfEncodeIsTheInstruction : Prop :=
  ∀ c : Config, c.wf = true → ∀ i : Instr, i.wf = true → decodeWith c (encodeWith c i) = .ok i

/-- From R80 and R89. A word that decodes is the encoding of what it decodes to: no bit of a word is dropped. -/
def Obligations.EncodeOfDecodedIsTheWord : Prop :=
  ∀ (c : Config) (w : Word) (i : Instr), decodeWith c w = .ok i → encodeWith c i = w

/-- R87. By default a word is illegal exactly when its opcode nibble is 0x0 or 0x4 to 0xF, whatever its other bits; the
dispatch table agrees, and a step that fetches it faults. -/
def Obligations.UnassignedOpcodesAreIllegal : Prop :=
  ∀ w : Word,
    ((opcodeField w = 0x0 ∨ 0x4 ≤ opcodeField w) ↔ decode w = .error (.unknownOpcode (opcodeField w))) ∧
    ((opcodeField w = 0x0 ∨ 0x4 ≤ opcodeField w) ↔ dispatch Config.reference (opcodeField w) = none) ∧
    ((opcodeField w = 0x0 ∨ 0x4 ≤ opcodeField w) → ∀ s : State, s.Fetches Config.reference w →
      step s = .fault (.unknownOpcode (opcodeField w) s.ip))

/-- From R93 (derived by the spec; the opcode values are its decision D2). The encoding formulas of the default assignment and the spec's four examples. -/
def Obligations.EncodingFormulas : Prop :=
  (∀ (d : RegIndex) (imm : Byte),
    (encode (.li d imm)).toNat = imm.toNat <<< 8 ||| d.toNat <<< 4 ||| 0x1 ∧
    (encode (.lih d imm)).toNat = imm.toNat <<< 8 ||| d.toNat <<< 4 ||| 0x2) ∧
  (∀ d a b : RegIndex,
    (encode (.or d a b)).toNat = b.toNat <<< 12 ||| a.toNat <<< 8 ||| d.toNat <<< 4 ||| 0x3) ∧
  encode (.li 0 2) = 0x0201 ∧ encode (.or ipIndex 0 0) = 0x00E3 ∧
  encode (.lih 5 0x12) = 0x1252 ∧ encode (.or 1 2 3) = 0x3213

/-- From `95_test_vectors.md` section 2.1. The words of the decode table. -/
def Obligations.SpecWordsDecode : Prop :=
  decode 0x0201 = .ok (.li 0 2) ∧ decode 0x00E3 = .ok (.or ipIndex 0 0) ∧ decode 0x1252 = .ok (.lih 5 0x12) ∧
  decode 0x3213 = .ok (.or 1 2 3) ∧ decode 0xEEE3 = .ok (.or ipIndex ipIndex ipIndex) ∧
  decode 0xFFF1 = .ok (.li 15 0xFF) ∧ decode 0x0000 = .error (.unknownOpcode 0x0) ∧
  decode 0xFFF4 = .error (.unknownOpcode 0x4) ∧ decode 0x123F = .error (.unknownOpcode 0xF)

/-- From R85 (that the opcodes are distinct and not rebound is the spec's decision D24). The dispatch table of a well-formed configuration: the evidenced opcodes, which are distinct and never rebound, map to
the tuples of R86, each bound opcode to its tuple, every other opcode to none. -/
def Obligations.DispatchTableIsTotalMap : Prop :=
  ∀ c : Config, c.wf = true →
    dispatch c c.opcLi = some .li ∧ dispatch c c.opcLih = some .lih ∧ dispatch c c.opcOr = some .or ∧
    (c.opcLi ≠ c.opcLih ∧ c.opcLi ≠ c.opcOr ∧ c.opcLih ≠ c.opcOr) ∧
    (∀ op b, (op, b) ∈ c.extraDispatch →
      (op ≠ c.opcLi ∧ op ≠ c.opcLih ∧ op ≠ c.opcOr) ∧ dispatch c op = some b) ∧
    (∀ op, op ≠ c.opcLi → op ≠ c.opcLih → op ≠ c.opcOr → (∀ b, (op, b) ∉ c.extraDispatch) → dispatch c op = none)

/-- From R86 (the unused fields are the spec's decision D22, OR's source fields D4). The three tuples, and that no result depends on a field marked unused: a tuple with the used fields of LI, LIH or OR
does what that instruction's tuple does. -/
def Obligations.UnusedTupleFieldsHaveNoEffect : Prop :=
  BusTuple.li = ⟨true, .r1, .immLow, .r2, .r3, false, false, .ip, .reg2, .add, .ip, .const2⟩ ∧
  BusTuple.lih = ⟨true, .r1, .immHigh, .r2, .r3, false, false, .ip, .reg2, .add, .ip, .const2⟩ ∧
  BusTuple.or = ⟨true, .r1, .alu, .r2, .r3, false, false, .ip, .reg2, .or, .reg1, .reg2⟩ ∧
  ∀ (c : Config) (b : BusTuple) (f : Fields) (s : State),
    b.regWe = true → b.regWaddrSrc = .r1 → b.memWe = false →
    (b.regWdataSrc = .immLow → runBus c b f s = runBus c .li f s) ∧
    (b.regWdataSrc = .immHigh → runBus c b f s = runBus c .lih f s) ∧
    (b.regWdataSrc = .alu → b.regRaddr1Src = .r2 → b.regRaddr2Src = .r3 → b.aluOp = .or →
      b.aluASrc = .reg1 → b.aluBSrc = .reg2 → runBus c b f s = runBus c .or f s)

/-! ### The step -/

/-- From R110 and R113. A step of the reference core runs the decoded instruction on the state whose latch holds the fetched
word. -/
def Obligations.StepRunsTheDecodedInstruction : Prop :=
  ∀ (s : State) (w : Word) (i : Instr), s.Fetches Config.reference w → decode w = .ok i →
    step s = exec i (s.latch w)

/-- From R110. A word placed where the core fetches is the instruction its next step runs (the model's own withFetchWord,
assumption log entry 4). -/
def Obligations.PlacedWordIsTheNextInstruction : Prop :=
  ∀ (s : State) (nbits w : Nat) (i : Instr), s.mem.wf = true → decodeTableWord nbits w = some i →
    step (s.withFetchWord nbits w) = exec i ((s.withFetchWord nbits w).latch (tableWord nbits w))

/-- From R111. The reference core's step, which decodes to an instruction and runs its meaning, is the spec's common step with
the default parameters. -/
def Obligations.StepIsTheSequencerStep : Prop :=
  ∀ s : State, step s = stepWith Config.reference s

/-- From R209 (the order is the spec's decision D8). Which fault a step reports, in the spec's order, and that it commits when none applies; for every configuration. -/
def Obligations.FaultPriorityOrder : Prop :=
  ∀ (c : Config) (s : State), s.halted = none →
    (misaligned c s.ip = true → stepWith c s = .fault (.misalignedAddress s.ip .fetch s.ip)) ∧
    (misaligned c s.ip = false → outOfRange c s.ip = true →
      stepWith c s = .fault (.outOfBoundsAddress s.ip .fetch s.ip)) ∧
    (misaligned c s.ip = false → outOfRange c s.ip = false →
      (dispatch c (opcodeField (s.mem.read s.ip)) = none →
        stepWith c s = .fault (.unknownOpcode (opcodeField (s.mem.read s.ip)) s.ip)) ∧
      (∀ b g, dispatch c (opcodeField (s.mem.read s.ip)) = some b →
        g = signals c b (.ofWord (s.mem.read s.ip)) s →
        (g.usesData = true → misaligned c g.maddr = true →
          stepWith c s = .fault (.misalignedAddress g.maddr .data s.ip)) ∧
        (g.usesData = true → misaligned c g.maddr = false → outOfRange c g.maddr = true →
          stepWith c s = .fault (.outOfBoundsAddress g.maddr .data s.ip)) ∧
        ((g.usesData = true → misaligned c g.maddr = false ∧ outOfRange c g.maddr = false) →
          stepWith c s = .next (commit g (s.latch (s.mem.read s.ip))))))

/-- R201. A fetched word without a dispatch entry raises UnknownOpcode, code 1, with its opcode and its IP. -/
def Obligations.UnknownOpcodeFaultNamesOpcodeAndIp : Prop :=
  (∀ (c : Config) (s : State) (w : Word), s.Fetches c w → dispatch c (opcodeField w) = none →
    stepWith c s = .fault (.unknownOpcode (opcodeField w) s.ip) ∧
    Fault.code (.unknownOpcode (opcodeField w) s.ip) = 1) ∧
  (∀ (s : State) (w : Word), s.Fetches Config.reference w → (opcodeField w = 0x0 ∨ 0x4 ≤ opcodeField w) →
    step s = .fault (.unknownOpcode (opcodeField w) s.ip))

/-- R202. An access the step uses at a word index of MEM_WORDS or more raises OutOfBoundsAddress, code 2, with the address, the
phase and the IP; in the reference core index 1023 (byte address 0x07FE) is fetched and index 1024 (0x0800) faults. -/
def Obligations.OutOfBoundsFaultOnUsedAccess : Prop :=
  (∀ (c : Config) (s : State), s.halted = none → misaligned c s.ip = false → c.memWords ≤ s.ip.toNat / 2 →
    stepWith c s = .fault (.outOfBoundsAddress s.ip .fetch s.ip) ∧
    Fault.code (.outOfBoundsAddress s.ip .fetch s.ip) = 2) ∧
  (∀ (c : Config) (s : State) (w : Word) (b : BusTuple) (g : Signals),
    s.Fetches c w → dispatch c (opcodeField w) = some b → g = signals c b (.ofWord w) s →
    g.usesData = true → misaligned c g.maddr = false → c.memWords ≤ g.maddr.toNat / 2 →
    stepWith c s = .fault (.outOfBoundsAddress g.maddr .data s.ip)) ∧
  (∀ s : State, s.halted = none →
    (s.ip = 0x07FE → s.Fetches Config.reference (s.mem.word 1023)) ∧
    (s.ip = 0x0800 → step s = .fault (.outOfBoundsAddress 0x0800 .fetch 0x0800)))

/-- From R203 (the spec's decision D7). Under ODD_ADDR_POLICY = fault an access the step uses at an odd address raises MisalignedAddress, code 4, with the
address, the phase and the IP; under ignore_bit0 no step raises it. -/
def Obligations.MisalignedFaultOnlyUnderFaultPolicy : Prop :=
  ∀ (c : Config) (s : State), s.halted = none →
    (c.oddAddrPolicy = .fault → s.ip.getLsbD 0 = true →
      stepWith c s = .fault (.misalignedAddress s.ip .fetch s.ip) ∧
      Fault.code (.misalignedAddress s.ip .fetch s.ip) = 4) ∧
    (∀ (w : Word) (b : BusTuple) (g : Signals), c.oddAddrPolicy = .fault →
      s.Fetches c w → dispatch c (opcodeField w) = some b → g = signals c b (.ofWord w) s →
      g.usesData = true → g.maddr.getLsbD 0 = true →
      stepWith c s = .fault (.misalignedAddress g.maddr .data s.ip)) ∧
    (∀ a ph ip, c.oddAddrPolicy = .ignoreBit0 → stepWith c s ≠ .fault (.misalignedAddress a ph ip))

/-- From R56 (the spec's decision D7). Under ignore_bit0 an odd address selects the word its even neighbour does: the step
fetches it, and the IP keeps its odd bit as it advances. -/
def Obligations.IgnoreBit0FetchesTheEvenWord : Prop :=
  ∀ (c : Config) (s : State), c.oddAddrPolicy = .ignoreBit0 → s.halted = none → s.ip.toNat / 2 < c.memWords →
    s.Fetches c (s.mem.word (s.ip.toNat / 2)) ∧
    (∀ (b : BusTuple) (t : State), dispatch c (opcodeField (s.mem.word (s.ip.toNat / 2))) = some b →
      ¬ (b.regWe = true ∧ regAddr (.ofWord (s.mem.word (s.ip.toNat / 2))) b.regWaddrSrc = ipIndex) →
      stepWith c s = .next t → t.ip = s.ip + 2 ∧ t.ip.getLsbD 0 = s.ip.getLsbD 0)

/-- From R111, R87 and R57. A step of the reference core completes exactly when the core is running, its IP is even and in
bounds, and the word there has an assigned opcode. -/
def Obligations.StepCompletesExactlyOnLegalWords : Prop :=
  ∀ s : State, SafeStep s ↔
    s.halted = none ∧ s.ip.toNat % 2 = 0 ∧ s.ip.toNat < 0x0800 ∧
    (opcodeField (s.mem.read s.ip) = 0x1 ∨ opcodeField (s.mem.read s.ip) = 0x2 ∨
      opcodeField (s.mem.read s.ip) = 0x3)

/-- R128. From a state that is not halted a step gives a next state or a fault, whatever the parameters; it is never
refused. -/
def Obligations.StepIsTotal : Prop :=
  ∀ (c : Config) (s : State), s.halted = none →
    ((∃ t, stepWith c s = .next t) ∨ (∃ f, stepWith c s = .fault f)) ∧
    ((∃ t, step s = .next t) ∨ (∃ f, step s = .fault f))

/-- From R121 (the spec's decision D14). The data phase is used exactly when the step reads memory data or writes memory with a nonzero mask; only then is its
address checked, and an unused address never faults. -/
def Obligations.OnlyUsedDataAddressesAreChecked : Prop :=
  ∀ (c : Config) (b : BusTuple) (f : Fields) (s : State) (g : Signals), g = signals c b f s →
    (g.usesData = true ↔
      (b.regWe = true ∧ (b.regWdataSrc = .memLowByte ∨ b.regWdataSrc = .memWord)) ∨
      memMask b.memWe b.memHalf ≠ maskNone) ∧
    (g.usesData = false → runBus c b f s = .next (commit g s)) ∧
    (g.usesData = true → ∀ flt, checkAddr c g.maddr .data s.ip = some flt → runBus c b f s = .fault flt) ∧
    (g.usesData = true → checkAddr c g.maddr .data s.ip = none → runBus c b f s = .next (commit g s))

/-- R115, R117 and R61. The routing tables, and that a cycle's signals are routed by them: one register address function for
both read ports and the write port, one operand function for both ALU inputs. With the memory address and data (from R119 and
R120) and the register write data (from R118): of a source that reads no memory whatever the word, of any source where the step
writes a register and the data address passes its check. Of a memory read the step does not use it says nothing. -/
def Obligations.RoutingTables : Prop :=
  (∀ f : Fields, regAddr f .r1 = f.r1 ∧ regAddr f .r2 = f.r2 ∧ regAddr f .r3 = f.r3 ∧ regAddr f .ip = 14) ∧
  (∀ w : Word, (Fields.ofWord w).r1 = w.extractLsb 7 4 ∧ (Fields.ofWord w).r2 = w.extractLsb 11 8 ∧
    (Fields.ofWord w).r3 = w.extractLsb 15 12) ∧
  (∀ ip v1 v2 : Word, aluOperand ip v1 v2 .ip = ip ∧ aluOperand ip v1 v2 .reg1 = v1 ∧
    aluOperand ip v1 v2 .reg2 = v2 ∧ aluOperand ip v1 v2 .const2 = 0x0002) ∧
  (∀ ip v : Word, memAddr ip v .ip = ip ∧ memAddr ip v .reg1 = v ∧ memData ip v .ip = ip ∧ memData ip v .reg2 = v) ∧
  (∀ half : Bool, memMask false half = 0b00) ∧ memMask true false = 0b11 ∧ memMask true true = 0b01 ∧
  (∀ (c : Config) (b : BusTuple) (f : Fields) (s : State) (g : Signals), g = signals c b f s →
    g.ip = s.ip ∧
    g.v1 = s.reg (regAddr f b.regRaddr1Src) ∧ g.v2 = s.reg (regAddr f b.regRaddr2Src) ∧
    g.waddr = regAddr f b.regWaddrSrc ∧
    g.alu = alu b.aluOp (aluOperand s.ip g.v1 g.v2 b.aluASrc) (aluOperand s.ip g.v1 g.v2 b.aluBSrc) ∧
    g.maddr = memAddr s.ip g.v1 b.memAddrSrc ∧ g.mdata = memData s.ip g.v2 b.memDataSrc ∧
    g.mmask = memMask b.memWe b.memHalf ∧
    g.wmask = regWriteMask c b.regWdataSrc ∧
    (b.regWdataSrc ≠ .memLowByte → b.regWdataSrc ≠ .memWord →
      ∀ mword, g.wdata = regWriteData f.imm8 mword g.alu.res b.regWdataSrc) ∧
    (b.regWe = true → checkAddr c g.maddr .data s.ip = none →
      g.wdata = regWriteData f.imm8 (s.mem.read g.maddr) g.alu.res b.regWdataSrc))

/-- From R118 and R82 (the masks of the memory and ALU sources are the spec's decisions D11 and D12). The data and the mask of each register write source. -/
def Obligations.RegisterWriteSources : Prop :=
  ∀ (c : Config) (w mword res : Word),
    (Fields.ofWord w).imm8 = w.extractLsb 15 8 ∧
    (∀ imm : Byte, regWriteData imm mword res .immLow = imm.setWidth 16 ∧ regWriteMask c .immLow = 0b01 ∧
      regWriteData imm mword res .immHigh = wordOf imm 0x00 ∧ regWriteMask c .immHigh = 0b10 ∧
      regWriteData imm mword res .memLowByte = (lowByte mword).setWidth 16 ∧
      regWriteData imm mword res .memWord = mword ∧ regWriteMask c .memWord = 0b11 ∧
      regWriteData imm mword res .alu = res ∧ regWriteMask c .alu = 0b11) ∧
    (c.memLowByteMode = .lowMask → regWriteMask c .memLowByte = 0b01) ∧
    (c.memLowByteMode = .zextFull → regWriteMask c .memLowByte = 0b11)

/-- R123. The register write of a step that commits: the addressed cell, whichever it is, becomes the byte merge of its
start-of-step value; without a write the register file is unchanged but for the IP. -/
def Obligations.RegisterCommitIsAMaskedMerge : Prop :=
  ∀ (c : Config) (s t : State) (w : Word) (b : BusTuple) (g : Signals),
    s.Fetches c w → dispatch c (opcodeField w) = some b → g = signals c b (.ofWord w) s → stepWith c s = .next t →
    g.waddr = regAddr (.ofWord w) b.regWaddrSrc ∧
    (b.regWe = true → g.wmask ≠ 0b00 → t.reg g.waddr = merge (s.reg g.waddr) g.wdata g.wmask) ∧
    (b.regWe = true → ∀ r, r ≠ g.waddr → r ≠ ipIndex → t.reg r = s.reg r) ∧
    (b.regWe = false → ∀ r, r ≠ ipIndex → t.reg r = s.reg r)

/-- From R124 and R125 (the spec's decision D5). The IP after a step that commits: a register write to 14 replaces the advance, and
the untouched byte of a partial write is that of the current instruction's address; every other step advances it by 2. -/
def Obligations.IpIsWrittenOrAdvancedNeverBoth : Prop :=
  (∀ (c : Config) (s t : State) (w : Word) (b : BusTuple) (g : Signals),
    s.Fetches c w → dispatch c (opcodeField w) = some b → g = signals c b (.ofWord w) s → stepWith c s = .next t →
    ((b.regWe = true ∧ g.waddr = ipIndex ∧ g.wmask ≠ 0b00) → t.ip = merge s.ip g.wdata g.wmask) ∧
    (¬ (b.regWe = true ∧ g.waddr = ipIndex ∧ g.wmask ≠ 0b00) → t.ip.toNat = (s.ip.toNat + 2) % 65536)) ∧
  (∀ s : State, s.Fetches Config.reference 0x10E1 → s.ip = 0x0204 → ∃ t, step s = .next t ∧ t.ip = 0x0210)

/-- R122. Every word of memory after a step that commits: the addressed word is the byte merge of its start-of-step
value; with mask 0b00 memory is unchanged. -/
def Obligations.MemoryAfterACommittedStep : Prop :=
  ∀ (c : Config) (s t : State) (w : Word) (b : BusTuple) (g : Signals), s.mem.wf = true →
    s.Fetches c w → dispatch c (opcodeField w) = some b → g = signals c b (.ofWord w) s → stepWith c s = .next t →
    (g.mmask = 0b00 → t.mem = s.mem) ∧
    (∀ k, t.mem.word k = if k = wordIndex g.maddr then merge (s.mem.word k) g.mdata g.mmask else s.mem.word k) ∧
    (∀ a, a / 2 ≠ wordIndex g.maddr → t.mem.readByte a = s.mem.readByte a)

/-- From R24 and R126. Whatever the parameters, at most one register other than register 14 changes in a step, the latch holds the
fetched word after it and the core stays running. -/
def Obligations.AtMostOneRegisterBesideIpChanges : Prop :=
  ∀ (c : Config) (s t : State), stepWith c s = .next t →
    (∃ d : RegIndex, ∀ r, r ≠ d → r ≠ ipIndex → t.reg r = s.reg r) ∧
    s.Fetches c t.ir ∧ t.halted = none

/-- From R62 and R64. No step of the reference core changes memory, so neither does any fault-free run of it. -/
def Obligations.ReferenceCoreNeverChangesMemory : Prop :=
  (∀ s t : State, step s = .next t → t.mem = s.mem) ∧
  (∀ (n : Nat) (s : State), (hostRun Config.reference n s).1.mem = s.mem)

/-- From R69 (derived by the spec from R66 and R59). A write committed in a step is seen by the fetch of the next step, also when it falls on the word fetched next; the
step's own instruction is the start-of-step word. -/
def Obligations.NextFetchSeesTheStepsStore : Prop :=
  ∀ (c : Config) (s t : State) (w : Word) (b : BusTuple) (g : Signals), s.mem.wf = true →
    s.Fetches c w → dispatch c (opcodeField w) = some b → g = signals c b (.ofWord w) s → stepWith c s = .next t →
    t.ir = s.mem.read s.ip ∧
    (checkAddr c t.ip .fetch t.ip = none →
      fetch c t = .ok (if wordIndex t.ip = wordIndex g.maddr then merge (s.mem.read t.ip) g.mdata g.mmask
        else s.mem.read t.ip))

/-- From R27 (the spec's decision D17). The IP wraps modulo 2^16: a step at 0xFFFE that writes no register 14 leaves 0x0000 in
it. Only a core with MEM_WORDS = 32768 fetches there; in the reference core an IP of 0x0800 or more faults at the fetch. -/
def Obligations.IpWrapNeedsFullMemory : Prop :=
  (∀ (c : Config) (s t : State) (w : Word) (b : BusTuple), s.ip = 0xFFFE → s.Fetches c w →
    dispatch c (opcodeField w) = some b → ¬ (b.regWe = true ∧ regAddr (.ofWord w) b.regWaddrSrc = ipIndex) →
    stepWith c s = .next t → t.ip = 0x0000) ∧
  (∀ (c : Config) (s : State) (w : Word), c.wf = true → s.Fetches c w → 0xFFFE ≤ s.ip.toNat → c.memWords = 32768) ∧
  (∀ s : State, s.halted = none → 0x0800 ≤ s.ip.toNat →
    ∃ f, checkAddr Config.reference s.ip .fetch s.ip = some f ∧ step s = .fault f ∧ f.recordIp = some s.ip)

/-! ### The ALU, masks and words -/

/-- From R142 and R143, and from R141, whose wrap-around the spec derives from the 16-bit result. ADD modulo 2^16, OR, and the
zero flag of every invocation. -/
def Obligations.AluResultsAndZeroFlag : Prop :=
  ∀ a b : Word,
    (alu .add a b).res.toNat = (a.toNat + b.toNat) % 65536 ∧
    (alu .or a b).res = a ||| b ∧
    (∀ op, (alu op a b).zero = true ↔ (alu op a b).res = 0) ∧
    ((alu .or a b).zero = true ↔ a = 0 ∧ b = 0)

/-- From R10 (the mask's numbering is the spec's decision D11). The byte merge under each of the four masks. -/
def Obligations.MergeUnderEachMask : Prop :=
  ∀ o n : Word,
    merge o n 0b00 = o ∧ merge o n 0b11 = n ∧
    (merge o n 0b01).toNat = o.toNat / 256 * 256 + n.toNat % 256 ∧
    (merge o n 0b10).toNat = n.toNat / 256 * 256 + o.toNat % 256

/-! ### Faults -/

/-- R206. Fault entry: a step that faults commits nothing, `halted` becomes the record, and the record's IP is the address of the
faulting instruction. -/
def Obligations.FaultCommitsNothingAndIsPrecise : Prop :=
  ∀ (c : Config) (s t : State) (f : Fault), s.halted = none → hostStep c s = (t, some f) →
    t.x = s.x ∧ t.ip = s.ip ∧ t.mem = s.mem ∧ t.ir = s.ir ∧ t.halted = some f ∧ f.recordIp = some s.ip

/-- From R207 and R110 (the spec's decision D10). A fault halts the core for good: every further step and every run of any length leaves the state and reports the
same record; the host's reset clears it. -/
def Obligations.HaltedCoreStaysHalted : Prop :=
  ∀ (c : Config) (s : State) (f : Fault), s.halted = some f →
    step s = .fault f ∧ hostStep c s = (s, some f) ∧ (∀ n, hostRun c (n + 1) s = (s, some f)) ∧
    (∀ n, stateAfter c n s = s) ∧
    (∀ h : Session, h.core = s → h.reset.readHalted = none)

/-! ### Invariants -/

/-- From R33, R57 and R64. The memory's invariant (canonical form, every listed byte in the array) is kept by every step that answers
a next state, of the reference core and of a core with any parameters. -/
def Obligations.EveryStepKeepsMemoryWellFormed : Prop :=
  (∀ s t : State, s.wf Config.reference = true → step s = .next t → t.wf Config.reference = true) ∧
  (∀ (c : Config) (s t : State), s.wf c = true → stepWith c s = .next t → t.wf c = true) ∧
  (∀ (c : Config) (n : Nat) (s : State), s.wf c = true → (hostRun c n s).1.wf c = true)

/-- From R36. The invariant of `EveryStepKeepsMemoryWellFormed` holds after reset. -/
def Obligations.ResetStateIsWellFormed : Prop :=
  ∀ c : Config, State.reset.wf c = true

/-- From R36 and R236. The invariant holds after the load of any accepted image. -/
def Obligations.LoadedImageIsWellFormed : Prop :=
  ∀ (c : Config) (image : List Word) (t : State), loadImage c image = .ok t → t.wf c = true

/-- From R26. The IP stays even through every step that writes only an even value into register 14. -/
def Obligations.EvenIpKeptByEvenWrites : Prop :=
  ∀ (c : Config) (s t : State) (w : Word) (b : BusTuple) (g : Signals),
    s.Fetches c w → dispatch c (opcodeField w) = some b → g = signals c b (.ofWord w) s → stepWith c s = .next t →
    s.evenIp = true →
    (g.writesReg = true → g.waddr = ipIndex → (merge s.ip g.wdata g.wmask).getLsbD 0 = false) →
    t.evenIp = true

/-- From R31. The latch is not observable: runs from states that differ only in the latch report the same, and end in states that
differ at most in the latch. -/
def Obligations.LatchIsNotObservable : Prop :=
  ∀ (c : Config) (n : Nat) (s : State) (v : Word),
    (hostRun c n (s.latch v)).2 = (hostRun c n s).2 ∧
    (hostRun c n (s.latch v)).1.x = (hostRun c n s).1.x ∧
    (hostRun c n (s.latch v)).1.mem = (hostRun c n s).1.mem ∧
    (hostRun c n (s.latch v)).1.halted = (hostRun c n s).1.halted

/-! ### The host surface -/

/-- R236 and R204. An image of at most MEM_WORDS words is loaded word by word from cell 0, the rest of memory is 0, and reset follows; a
longer one is rejected and no state changes. -/
def Obligations.ImageLoadPlacesWordsThenResets : Prop :=
  ∀ (c : Config) (image : List Word) (h : Session),
    (c.memWords < image.length → h.load c image = (h, some (.imageTooLarge image.length)) ∧
      Fault.code (.imageTooLarge image.length) = 3) ∧
    (image.length ≤ c.memWords → ∃ h', h.load c image = (h', none) ∧ h'.image = image ∧
      (∀ k, (hk : k < image.length) → h'.readMem c k = some image[k]) ∧
      (∀ k, image.length ≤ k → k < c.memWords → h'.readMem c k = some 0) ∧
      (∀ r, h'.readReg r = 0) ∧ h'.readHalted = none ∧ h'.reset = h')

/-- From R230 (what `reset()` does to memory is the spec's decision D16). `reset()` from any state of the core: every register 0, memory the image last loaded followed by zeros, not halted. -/
def Obligations.ResetReturnsToTheLoadedImage : Prop :=
  ∀ (c : Config) (h : Session), h.image.length ≤ c.memWords →
    (∀ r, h.reset.readReg r = 0) ∧ h.reset.readHalted = none ∧ h.reset.image = h.image ∧
    (∀ k, (hk : k < h.image.length) → h.reset.readMem c k = some h.image[k]) ∧
    (∀ k, h.image.length ≤ k → k < c.memWords → h.reset.readMem c k = some 0)

/-- From R36 and R231. The reset state itself, and that the first step after a load fetches the image's first word; with no image
it reports UnknownOpcode 0 at address 0. -/
def Obligations.FirstFetchAfterResetIsWordZero : Prop :=
  (∀ r, State.reset.reg r = 0) ∧ State.reset.halted = none ∧ (∀ k, State.reset.mem.word k = 0) ∧
  (∀ (c : Config) (w : Word) (ws : List Word) (t : State), loadImage c (w :: ws) = .ok t →
    t.ip = 0 ∧ t.Fetches c w) ∧
  step State.reset = .fault (.unknownOpcode 0x0 0x0000)

/-- From R235 (the early stop is the spec's decision D26). `run(n)` steps up to `n` times and stops at the first fault, which it returns; continuing would change nothing. -/
def Obligations.RunStopsAtTheFirstFault : Prop :=
  ∀ (c : Config) (n : Nat) (s : State),
    hostRun c 0 s = (s, none) ∧
    (hostRun c n s).1 = stateAfter c n s ∧
    (∀ f, (hostRun c n s).2 = some f ↔
      ∃ k, k < n ∧ (hostStep c (stateAfter c k s)).2 = some f ∧
        ∀ j, j < k → (hostStep c (stateAfter c j s)).2 = none)

/-- From R234 and R235. The host interface's run of the machine is `run(n)` of the spec's host surface, state and fault alike. -/
def Obligations.MachineRunIsHostRun : Prop :=
  ∀ (n : Nat) (s t : State) (f : Fault),
    (Host.Core.run core n s = .next t ↔ hostRun Config.reference n s = (t, none)) ∧
    (Host.Core.run core n s = .fault f ↔ (hostRun Config.reference n s).2 = some f)

/-- From R240, for a core with any parameters. Holding `rst` and writing an image through the load port leaves the core as the
image load does, whether or not the first edge of the reset already loads, and the accessor ports then show it; each edge with
`rst` = 0 is one host step, the edge that releases a reset included. That the first edge of a reset clears memory is the model's
choice (assumption log entry 7). -/
def Obligations.LoadPortEqualsImageLoad : Prop :=
  ∀ (c : Config) (b : Block),
    (∀ (i : BlockIn c) (image : List Word), i.rst = true → i.loadEn = false → b.inReset = false →
      image.length ≤ c.memWords → ∃ l, b.edges c (i :: loadEdges c 0 image) = l ∧
        loadImage c image = .ok l.core ∧
        (image ≠ [] → b.edges c (loadEdges c 0 image) = l) ∧
        (∀ a : BitVec (addrBits c), a.toNat < c.memWords → l.dbgMdata c a = (image[a.toNat]?).getD 0) ∧
        (∀ r, l.dbgRdata r = 0) ∧ l.haltedOut = false) ∧
    (∀ j : BlockIn c, j.rst = false →
      (b.edge c j).core = (hostStep c b.core).1 ∧ (b.edge c j).inReset = false)

/-- From R240 and R239, for a core with any parameters. The address ports are `log2 MEM_WORDS` wide and reach every memory word;
the accessors show the state. The first edge of a reset leaves zeros and a running core but for the word it loads; a further load
edge writes its word and nothing else, and a further edge with `load_en` = 0 nothing. The clearing at the first edge and the
rounding for a MEM_WORDS that is no power of two are the model's choice (assumption log entry 7). -/
def Obligations.BlockPortsReachEveryWord : Prop :=
  ∀ (c : Config) (b : Block),
    (∀ n, c.memWords = 2 ^ n → addrBits c = n) ∧
    (∀ k, k < c.memWords → ∃ a : BitVec (addrBits c), a.toNat = k ∧ b.dbgMdata c a = b.core.mem.word k) ∧
    (∀ r, b.dbgRdata r = b.core.reg r) ∧
    (∀ i : BlockIn c, i.rst = true → b.inReset = false →
      (b.edge c i).inReset = true ∧
      (∀ r, (b.edge c i).core.reg r = 0) ∧ (b.edge c i).core.halted = none ∧
      (i.loadEn = false → ∀ k, (b.edge c i).core.mem.word k = 0) ∧
      (i.loadEn = true → i.loadAddr.toNat < c.memWords →
        ∀ k, (b.edge c i).core.mem.word k = if k = i.loadAddr.toNat then i.loadData else 0)) ∧
    (∀ i : BlockIn c, b.core.mem.wf = true → i.rst = true → b.inReset = true →
      (b.edge c i).inReset = true ∧
      (i.loadEn = false → (b.edge c i).core = b.core) ∧
      (i.loadEn = true → i.loadAddr.toNat < c.memWords →
        (∀ k, (b.edge c i).core.mem.word k = if k = i.loadAddr.toNat then i.loadData else b.core.mem.word k) ∧
        (∀ r, (b.edge c i).core.reg r = b.core.reg r) ∧ (b.edge c i).core.halted = b.core.halted))

/-- From R240 and R200. The fault signals of the block: `halted`, the code, and the record's fields where the layout places them;
bits the layout leaves open are free (assumption log entry 8). -/
def Obligations.FaultSignalsShowTheRecord : Prop :=
  ∀ (b : Block) (op : Opcode) (a ip : Word) (ph : Phase),
    (b.haltedOut = false ↔ b.core.halted = none) ∧
    (b.core.halted = some (.unknownOpcode op ip) →
      b.faultCode = 1 ∧ b.faultInfo.extractLsb' 32 4 = op ∧ b.faultInfo.extractLsb' 0 16 = ip) ∧
    (b.core.halted = some (.outOfBoundsAddress a ph ip) →
      b.faultCode = 2 ∧ b.faultInfo.extractLsb' 16 16 = a ∧ b.faultInfo.extractLsb' 0 16 = ip) ∧
    (b.core.halted = some (.misalignedAddress a ph ip) →
      b.faultCode = 4 ∧ b.faultInfo.extractLsb' 16 16 = a ∧ b.faultInfo.extractLsb' 0 16 = ip)

/-! ### The routes of EXTRA_DISPATCH -/

/-- From R171 (derived by the spec from R111). Every tuple of route-LW: the addressed word into the destination, the checks of the
data address, nothing else. -/
def Obligations.RouteLoadWord : Prop :=
  ∀ (c : Config) (b : BusTuple) (f : Fields) (s : State),
    b.regWe = true → b.regWaddrSrc = .r1 → b.regWdataSrc = .memWord → b.regRaddr1Src = .r2 →
    b.memWe = false → b.memAddrSrc = .reg1 →
    (∀ flt, checkAddr c (s.reg f.r2) .data s.ip = some flt → runBus c b f s = .fault flt) ∧
    (checkAddr c (s.reg f.r2) .data s.ip = none → ∃ t, runBus c b f s = .next t ∧
      t.reg f.r1 = s.mem.word (wordIndex (s.reg f.r2)) ∧ (f.r1 ≠ ipIndex → t.ip = s.ip + 2) ∧
      OnlyRegister f.r1 s t)

/-- From R172 (derived by the spec from R111; the mask is its decision D12). Every tuple of route-LB: the low byte of the addressed
word, under each MEM_LOW_BYTE_MODE. -/
def Obligations.RouteLoadLowByte : Prop :=
  ∀ (c : Config) (b : BusTuple) (f : Fields) (s : State),
    b.regWe = true → b.regWaddrSrc = .r1 → b.regWdataSrc = .memLowByte → b.regRaddr1Src = .r2 →
    b.memWe = false → b.memAddrSrc = .reg1 →
    (∀ flt, checkAddr c (s.reg f.r2) .data s.ip = some flt → runBus c b f s = .fault flt) ∧
    (checkAddr c (s.reg f.r2) .data s.ip = none → ∃ t, runBus c b f s = .next t ∧
      (c.memLowByteMode = .lowMask →
        t.reg f.r1 = wordOf (highByte (s.reg f.r1)) (lowByte (s.mem.word (wordIndex (s.reg f.r2))))) ∧
      (c.memLowByteMode = .zextFull → t.reg f.r1 = (lowByte (s.mem.word (wordIndex (s.reg f.r2)))).setWidth 16) ∧
      (f.r1 ≠ ipIndex → t.ip = s.ip + 2) ∧ OnlyRegister f.r1 s t)

/-- From R173 (derived by the spec from R111). Every tuple of route-SW with R2 as address and R3 as data: the data register into the
addressed word, which the next fetch sees; no other byte and no register but the IP changes. -/
def Obligations.RouteStoreWord : Prop :=
  ∀ (c : Config) (b : BusTuple) (f : Fields) (s : State), s.mem.wf = true →
    b.regWe = false → b.memWe = true → b.memHalf = false → b.memAddrSrc = .reg1 → b.memDataSrc = .reg2 →
    b.regRaddr1Src = .r2 → b.regRaddr2Src = .r3 →
    (∀ flt, checkAddr c (s.reg f.r2) .data s.ip = some flt → runBus c b f s = .fault flt) ∧
    (checkAddr c (s.reg f.r2) .data s.ip = none → ∃ t, runBus c b f s = .next t ∧
      t.mem.word (wordIndex (s.reg f.r2)) = s.reg f.r3 ∧ t.ip = s.ip + 2 ∧ OnlyWord (s.reg f.r2) s t ∧
      (checkAddr c (s.ip + 2) .fetch (s.ip + 2) = none → wordIndex (s.ip + 2) = wordIndex (s.reg f.r2) →
        fetch c t = .ok (s.reg f.r3)))

/-- From R174 (derived by the spec from R111). Every tuple of route-SB: the low byte of the data register into the low byte of the
addressed word, whose high byte is kept. -/
def Obligations.RouteStoreLowByte : Prop :=
  ∀ (c : Config) (b : BusTuple) (f : Fields) (s : State), s.mem.wf = true →
    b.regWe = false → b.memWe = true → b.memHalf = true → b.memAddrSrc = .reg1 → b.memDataSrc = .reg2 →
    b.regRaddr1Src = .r2 → b.regRaddr2Src = .r3 →
    (∀ flt, checkAddr c (s.reg f.r2) .data s.ip = some flt → runBus c b f s = .fault flt) ∧
    (checkAddr c (s.reg f.r2) .data s.ip = none → ∃ t, runBus c b f s = .next t ∧
      t.mem.word (wordIndex (s.reg f.r2)) =
        wordOf (highByte (s.mem.word (wordIndex (s.reg f.r2)))) (lowByte (s.reg f.r3)) ∧
      t.ip = s.ip + 2 ∧ OnlyWord (s.reg f.r2) s t)

/-- From R175 (derived by the spec from R111). A store whose data is the IP stores the address of the current instruction, whatever the mask and the address source. -/
def Obligations.RouteStoreIp : Prop :=
  ∀ (c : Config) (b : BusTuple) (f : Fields) (s : State) (g : Signals), s.mem.wf = true →
    b.memWe = true → b.memDataSrc = .ip → g = signals c b f s → checkAddr c g.maddr .data s.ip = none →
    ∃ t, runBus c b f s = .next t ∧
      t.mem.word (wordIndex g.maddr) = merge (s.mem.word (wordIndex g.maddr)) s.ip g.mmask ∧
      (∀ k, k ≠ wordIndex g.maddr → t.mem.word k = s.mem.word k)

/-- From R176 (derived by the spec from R113 and R121). IP-addressed data accesses cannot fault in the data phase; a load reads the instruction word itself, and a store overwrites
it at the end of the step. -/
def Obligations.RouteIpAddressed : Prop :=
  ∀ (c : Config) (s : State) (w : Word) (b : BusTuple), s.mem.wf = true → s.Fetches c w →
    dispatch c (opcodeField w) = some b → b.memAddrSrc = .ip →
    ∃ t, stepWith c s = .next t ∧ t.ir = w ∧
      (b.regWe = true → b.regWdataSrc = .memWord → t.reg (regAddr (.ofWord w) b.regWaddrSrc) = w) ∧
      (b.memWe = true → b.memHalf = false → b.memDataSrc = .reg2 →
        t.mem.read s.ip = s.reg (regAddr (.ofWord w) b.regRaddr2Src))

/-- From R177 (derived by the spec from R111). Every tuple of route-ADD, with every pair of operand sources and every destination
source: the sum modulo 2^16, never a fault, nothing else. -/
def Obligations.RouteAdd : Prop :=
  ∀ (c : Config) (b : BusTuple) (f : Fields) (s : State),
    b.regWe = true → b.regWdataSrc = .alu → b.aluOp = .add → b.memWe = false →
    ∃ t v1 v2, v1 = s.reg (regAddr f b.regRaddr1Src) ∧ v2 = s.reg (regAddr f b.regRaddr2Src) ∧
      runBus c b f s = .next t ∧
      (t.reg (regAddr f b.regWaddrSrc)).toNat =
        ((aluOperand s.ip v1 v2 b.aluASrc).toNat + (aluOperand s.ip v1 v2 b.aluBSrc).toNat) % 65536 ∧
      (regAddr f b.regWaddrSrc ≠ ipIndex → t.ip = s.ip + 2) ∧ OnlyRegister (regAddr f b.regWaddrSrc) s t

/-- From R178 (derived by the spec from R111). A tuple that loads and stores in one step reads the start-of-step word and shares one address check; a tuple that writes
nothing advances the IP by 2 and does nothing else. -/
def Obligations.CombinedAndEmptyRoutes : Prop :=
  (∀ (c : Config) (b : BusTuple) (f : Fields) (s : State) (g : Signals), s.mem.wf = true →
    b.regWe = true → b.regWdataSrc = .memWord → b.memWe = true → g = signals c b f s →
    (∀ flt, checkAddr c g.maddr .data s.ip = some flt → runBus c b f s = .fault flt) ∧
    (checkAddr c g.maddr .data s.ip = none → ∃ t, runBus c b f s = .next t ∧
      t.reg g.waddr = s.mem.word (wordIndex g.maddr) ∧
      t.mem.word (wordIndex g.maddr) = merge (s.mem.word (wordIndex g.maddr)) g.mdata g.mmask)) ∧
  (∀ (c : Config) (b : BusTuple) (f : Fields) (s : State), b.regWe = false → b.memWe = false →
    ∃ t, runBus c b f s = .next t ∧ t.ip = s.ip + 2 ∧ OnlyRegister ipIndex s t)
end

