-- ==== Sys2Proof/Laws/Bits.lean ====
section
/-! SUPPORT. Bytes of a word and the byte merge of R10. -/

namespace Sys2Proof.Machine

/-- A bit of `{high, low}`. -/
theorem getLsbD_wordOf (h l : Byte) (i : Nat) :
    (wordOf h l).getLsbD i = if i < 8 then l.getLsbD i else h.getLsbD (i - 8) := by
  have e := BitVec.getLsbD_append (x := h) (y := l) (i := i)
  exact e

@[simp] theorem lowByte_wordOf (h l : Byte) : lowByte (wordOf h l) = l := by
  apply BitVec.eq_of_getLsbD_eq
  intro i hi
  rw [lowByte, BitVec.getLsbD_extractLsb', getLsbD_wordOf]
  simp [hi]

@[simp] theorem highByte_wordOf (h l : Byte) : highByte (wordOf h l) = h := by
  apply BitVec.eq_of_getLsbD_eq
  intro i hi
  rw [highByte, BitVec.getLsbD_extractLsb', getLsbD_wordOf]
  simp [hi]

@[simp] theorem wordOf_bytes (w : Word) : wordOf (highByte w) (lowByte w) = w := by
  apply BitVec.eq_of_getLsbD_eq
  intro i hi
  rw [getLsbD_wordOf]
  split
  · next h => simp [lowByte, h]
  · next h =>
    have h' : i - 8 < 8 := by omega
    have e : 8 + (i - 8) = i := by omega
    simp [highByte, h', e]

theorem merge_maskNone (o n : Word) : merge o n maskNone = o := by
  simp [merge, maskNone]

theorem merge_maskLow (o n : Word) : merge o n maskLow = wordOf (highByte o) (lowByte n) := rfl

theorem merge_maskHigh (o n : Word) : merge o n maskHigh = wordOf (highByte n) (lowByte o) := rfl

theorem merge_maskBoth (o n : Word) : merge o n maskBoth = n := by
  have h : merge o n maskBoth = wordOf (highByte n) (lowByte n) := rfl
  simp [h]

/-- Every mask is one of the four of R10. -/
theorem mask_cases (m : Mask) : m = maskNone ∨ m = maskLow ∨ m = maskHigh ∨ m = maskBoth := by
  revert m
  decide

@[simp] theorem lowByte_setWidth (b : Byte) : lowByte (b.setWidth 16) = b := by
  apply BitVec.eq_of_getLsbD_eq
  intro i hi
  simp [lowByte, hi]
  omega

end Sys2Proof.Machine
end

