-- ==== Sys2Proof/Laws/Memory.lean ====
section
/-! SUPPORT. The laws of memory: a read after a write, the canonical form, and that a canonical memory is determined by
what it reads as. -/

namespace Sys2Proof.Machine

theorem Memory.wf_nil : Memory.wf [] = true := rfl

theorem Memory.wf_cons {k : Nat} {b : Byte} {m : Memory} :
    Memory.wf ((k, b) :: m) = true ↔
      b ≠ Memory.unlisted ∧ (∀ c ∈ m, k < c.1) ∧ Memory.wf m = true := by
  simp [Memory.wf, and_assoc]

@[simp] theorem Memory.readByte_nil (a : Nat) : Memory.readByte [] a = Memory.unlisted := rfl

theorem Memory.readByte_cons (k : Nat) (b : Byte) (m : Memory) (a : Nat) :
    Memory.readByte ((k, b) :: m) a = if a = k then b else Memory.readByte m a := rfl

/-- Below every listed address a memory reads as unlisted. -/
theorem Memory.readByte_below {m : Memory} {a : Nat} (h : ∀ c ∈ m, a < c.1) :
    Memory.readByte m a = Memory.unlisted := by
  induction m with
  | nil => rfl
  | cons c m ih =>
    obtain ⟨k, b⟩ := c
    have hk : a < k := h (k, b) (by simp)
    rw [Memory.readByte_cons, if_neg (by omega)]
    exact ih fun c hc => h c (by simp [hc])

/-- A write lists no address but the one written and those listed before. -/
theorem Memory.mem_writeByte {m : Memory} {a : Nat} {v : Byte} {c : Host.Cell}
    (h : c ∈ Memory.writeByte m a v) : c.1 = a ∨ c ∈ m := by
  induction m with
  | nil =>
    simp only [Memory.writeByte] at h
    split at h <;> simp_all
  | cons d m ih =>
    obtain ⟨k, b⟩ := d
    simp only [Memory.writeByte] at h
    split at h
    · split at h
      · exact .inr h
      · rcases List.mem_cons.mp h with rfl | h
        · exact .inl rfl
        · exact .inr h
    · split at h
      · split at h
        · exact .inr (List.mem_cons_of_mem _ h)
        · rcases List.mem_cons.mp h with rfl | h
          · exact .inl rfl
          · exact .inr (List.mem_cons_of_mem _ h)
      · rcases List.mem_cons.mp h with rfl | h
        · exact .inr (by simp)
        · rcases ih h with h | h
          · exact .inl h
          · exact .inr (List.mem_cons_of_mem _ h)

/-- Every write of a byte keeps the canonical form. -/
theorem Memory.wf_writeByte {m : Memory} (a : Nat) (v : Byte) (h : m.wf = true) :
    (Memory.writeByte m a v).wf = true := by
  induction m with
  | nil =>
    simp only [Memory.writeByte]
    split
    · rfl
    · next hv => exact Memory.wf_cons.mpr ⟨hv, by simp, rfl⟩
  | cons d m ih =>
    obtain ⟨k, b⟩ := d
    obtain ⟨hb, hk, hm⟩ := Memory.wf_cons.mp h
    simp only [Memory.writeByte]
    split
    · next hlt =>
      split
      · exact h
      · next hv =>
        refine Memory.wf_cons.mpr ⟨hv, ?_, h⟩
        intro c hc
        rcases List.mem_cons.mp hc with rfl | hc
        · exact hlt
        · exact Nat.lt_trans hlt (hk c hc)
    · split
      · next heq =>
        split
        · exact hm
        · next hv => exact Memory.wf_cons.mpr ⟨hv, by simpa [heq] using hk, hm⟩
      · next hge hne =>
        refine Memory.wf_cons.mpr ⟨hb, ?_, ih hm⟩
        intro c hc
        rcases Memory.mem_writeByte hc with hc | hc
        · omega
        · exact hk c hc

/-- A byte reads its new value after a write to it and its old value after a write to another. -/
theorem Memory.readByte_writeByte {m : Memory} (a : Nat) (v : Byte) (x : Nat) (h : m.wf = true) :
    Memory.readByte (Memory.writeByte m a v) x = if x = a then v else Memory.readByte m x := by
  induction m with
  | nil =>
    simp only [Memory.writeByte]
    split
    · next hv => split <;> simp [hv]
    · simp [Memory.readByte_cons]
  | cons d m ih =>
    obtain ⟨k, b⟩ := d
    obtain ⟨hb, hk, hm⟩ := Memory.wf_cons.mp h
    have below : ∀ c ∈ m, k < c.1 := hk
    simp only [Memory.writeByte]
    split
    · next hlt =>
      split
      · next hv =>
        by_cases hx : x = a
        · subst hx
          rw [if_pos rfl, hv]
          exact Memory.readByte_below fun c hc => by
            rcases List.mem_cons.mp hc with rfl | hc
            · exact hlt
            · exact Nat.lt_trans hlt (hk c hc)
        · rw [if_neg hx]
      · rw [Memory.readByte_cons]
    · split
      · next heq =>
        subst heq
        split
        · next hv =>
          by_cases hx : x = a
          · subst hx
            rw [if_pos rfl, hv]
            exact Memory.readByte_below hk
          · rw [if_neg hx, Memory.readByte_cons, if_neg hx]
        · simp only [Memory.readByte_cons]
          split <;> simp_all
      · next hne =>
        rw [Memory.readByte_cons, ih hm, Memory.readByte_cons]
        by_cases hx : x = k
        · subst hx
          rw [if_pos rfl, if_neg (by omega), if_pos rfl]
        · rw [if_neg hx, if_neg hx]

/-- Canonical memories that read alike are equal. -/
theorem Memory.eq_of_readByte {m n : Memory} (hm : m.wf = true) (hn : n.wf = true)
    (h : ∀ a, Memory.readByte m a = Memory.readByte n a) : m = n := by
  induction m generalizing n with
  | nil =>
    cases n with
    | nil => rfl
    | cons d n =>
      obtain ⟨k, b⟩ := d
      have := h k
      simp only [Memory.readByte_nil, Memory.readByte_cons, if_pos] at this
      exact absurd this.symm (Memory.wf_cons.mp hn).1
  | cons c m ih =>
    obtain ⟨j, a⟩ := c
    obtain ⟨ha, hj, hm'⟩ := Memory.wf_cons.mp hm
    cases n with
    | nil =>
      have := h j
      simp only [Memory.readByte_nil, Memory.readByte_cons, if_pos] at this
      exact absurd this ha
    | cons d n =>
      obtain ⟨k, b⟩ := d
      obtain ⟨hb, hk, hn'⟩ := Memory.wf_cons.mp hn
      have hjk : j = k := by
        rcases Nat.lt_trichotomy j k with hlt | heq | hgt
        · have e := h j
          rw [Memory.readByte_cons, if_pos rfl, Memory.readByte_below (m := (k, b) :: n)] at e
          · exact absurd e ha
          · intro c hc
            rcases List.mem_cons.mp hc with rfl | hc
            · exact hlt
            · exact Nat.lt_trans hlt (hk c hc)
        · exact heq
        · have e := h k
          rw [Memory.readByte_cons k, if_pos rfl, Memory.readByte_below (m := (j, a) :: m)] at e
          · exact absurd e.symm hb
          · intro c hc
            rcases List.mem_cons.mp hc with rfl | hc
            · exact hgt
            · exact Nat.lt_trans hgt (hj c hc)
      subst hjk
      have hab : a = b := by
        have e := h j
        simpa [Memory.readByte_cons] using e
      subst hab
      rw [ih hm' hn' fun x => ?_]
      by_cases hx : x = j
      · subst hx
        rw [Memory.readByte_below hj, Memory.readByte_below hk]
      · have e := h x
        rwa [Memory.readByte_cons, Memory.readByte_cons, if_neg hx, if_neg hx] at e

theorem Memory.within_iff {m : Memory} {n : Nat} :
    m.within n = true ↔ ∀ c ∈ m, c.1 < 2 * n := by
  simp [Memory.within]

theorem Memory.within_writeByte {m : Memory} {n a : Nat} (v : Byte) (h : m.within n = true) (ha : a < 2 * n) :
    Memory.within (Memory.writeByte m a v) n = true := by
  rw [Memory.within_iff] at *
  intro c hc
  rcases Memory.mem_writeByte hc with hc | hc
  · omega
  · exact h c hc

/-! ### Words -/

theorem Memory.wf_setWord {m : Memory} (k : Nat) (v : Word) (h : m.wf = true) : (m.setWord k v).wf = true :=
  Memory.wf_writeByte _ _ (Memory.wf_writeByte _ _ h)

theorem Memory.within_setWord {m : Memory} {n k : Nat} (v : Word) (h : m.within n = true) (hk : k < n) :
    (m.setWord k v).within n = true :=
  Memory.within_writeByte _ (Memory.within_writeByte _ h (by omega)) (by omega)

/-- A byte after a word write: the word's two bytes are new, every other byte is as before. -/
theorem Memory.readByte_setWord {m : Memory} (k : Nat) (v : Word) (x : Nat) (h : m.wf = true) :
    Memory.readByte (m.setWord k v) x =
      if x = 2 * k + 1 then highByte v else if x = 2 * k then lowByte v else Memory.readByte m x := by
  rw [Memory.setWord, Memory.readByte_writeByte _ _ _ (Memory.wf_writeByte _ _ h), Memory.readByte_writeByte _ _ _ h]

/-- A word reads its new value after a write to it and its old value after a write to another. -/
theorem Memory.word_setWord {m : Memory} (k : Nat) (v : Word) (j : Nat) (h : m.wf = true) :
    (m.setWord k v).word j = if j = k then v else m.word j := by
  simp only [Memory.word, Memory.readByte_setWord k v _ h]
  by_cases hj : j = k
  · subst hj
    simp
  · have h1 : ¬ 2 * j + 1 = 2 * k + 1 := by omega
    have h2 : ¬ 2 * j + 1 = 2 * k := by omega
    have h3 : ¬ 2 * j = 2 * k + 1 := by omega
    have h4 : ¬ 2 * j = 2 * k := by omega
    simp only [h1, h2, h3, h4, hj, if_false]

/-- Writing a word's own value changes nothing. -/
theorem Memory.setWord_word {m : Memory} (k : Nat) (h : m.wf = true) : m.setWord k (m.word k) = m := by
  apply Memory.eq_of_readByte (Memory.wf_setWord _ _ h) h
  intro a
  rw [Memory.readByte_setWord _ _ _ h]
  simp only [Memory.word, highByte_wordOf, lowByte_wordOf]
  split
  · next e => rw [e]
  · split
    · next e => rw [e]
    · rfl

theorem Memory.word_nil (k : Nat) : Memory.word [] k = 0 := by
  simp [Memory.word, Memory.unlisted, wordOf]

/-! ### The masked write -/

theorem Memory.write_maskNone (m : Memory) (a v : Word) : m.write a v maskNone = m := by
  simp [Memory.write]

/-- A mask of 0b00 apart, the masked write is a write of the merged word. -/
theorem Memory.write_eq {m : Memory} (a v : Word) (k : Mask) (h : m.wf = true) :
    m.write a v k = m.setWord (wordIndex a) (merge (m.read a) v k) := by
  by_cases hk : k = maskNone
  · subst hk
    rw [Memory.write_maskNone, merge_maskNone, Memory.read, Memory.setWord_word _ h]
  · rw [Memory.write, if_neg hk]

/-- Every masked write keeps the canonical form. -/
theorem Memory.wf_write {m : Memory} (a v : Word) (k : Mask) (h : m.wf = true) : (m.write a v k).wf = true := by
  rw [Memory.write_eq a v k h]
  exact Memory.wf_setWord _ _ h

theorem Memory.within_write {m : Memory} {n : Nat} (a v : Word) (k : Mask) (h : m.within n = true)
    (ha : wordIndex a < n ∨ k = maskNone) : (m.write a v k).within n = true := by
  unfold Memory.write
  split
  · exact h
  · next hk => exact Memory.within_setWord _ h (ha.resolve_right hk)

/-- A byte outside the addressed word is as before a masked write. -/
theorem Memory.readByte_write_other {m : Memory} (a v : Word) (k : Mask) {x : Nat} (h : m.wf = true)
    (h0 : x ≠ 2 * wordIndex a) (h1 : x ≠ 2 * wordIndex a + 1) :
    Memory.readByte (m.write a v k) x = Memory.readByte m x := by
  rw [Memory.write_eq a v k h, Memory.readByte_setWord _ _ _ h, if_neg h1, if_neg h0]

/-- The word of any index after a masked write. -/
theorem Memory.word_write {m : Memory} (a v : Word) (k : Mask) (j : Nat) (h : m.wf = true) :
    (m.write a v k).word j = if j = wordIndex a then merge (m.read a) v k else m.word j := by
  rw [Memory.write_eq a v k h, Memory.word_setWord _ _ _ h]

theorem wordIndex_eq (a : Word) : wordIndex a = a.toNat / 2 := by
  simp [wordIndex, Nat.shiftRight_eq_div_pow]

end Sys2Proof.Machine
end

