-- ==== Sys2Proof/Laws/Block.lean ====
section
/-! SUPPORT. The width of the block's address ports, and everything one clock edge of the block can do. -/

namespace Sys2Proof.Machine

/-- Every word index fits the address ports. -/
theorem memWords_le_two_pow_addrBits (c : Config) : c.memWords ≤ 2 ^ addrBits c := by
  unfold addrBits
  split
  · next h => exact Nat.le_of_eq h.symm
  · exact Nat.le_of_lt Nat.lt_log2_self

theorem addrBits_of_two_pow (c : Config) (n : Nat) (h : c.memWords = 2 ^ n) : addrBits c = n := by
  simp [addrBits, h, Nat.log2_two_pow]

/-- A word index on an address port is itself. -/
theorem toNat_ofNat_addrBits (c : Config) (k : Nat) (h : k < c.memWords) :
    (BitVec.ofNat (addrBits c) k).toNat = k := by
  rw [BitVec.toNat_ofNat]
  exact Nat.mod_eq_of_lt (Nat.lt_of_lt_of_le h (memWords_le_two_pow_addrBits c))

/-- `dbg_mdata` at an address that names a cell. -/
theorem Block.dbgMdata_of_lt (c : Config) (b : Block) (a : BitVec (addrBits c)) (h : a.toNat < c.memWords) :
    b.dbgMdata c a = b.core.mem.word a.toNat := if_pos h

/-- An edge with `rst` = 0 is one host step. -/
theorem Block.edge_run (c : Config) (i : BlockIn c) (b : Block) (h : i.rst = false) :
    b.edge c i = { core := (hostStep c b.core).1, inReset := false } := by
  simp [Block.edge, h]

/-- The first edge of a reset clears the core and serves the load port. -/
theorem Block.edge_enter (c : Config) (i : BlockIn c) (b : Block) (h : i.rst = true) (hb : b.inReset = false) :
    b.edge c i = { core := loadPort c i State.reset, inReset := true } := by
  simp [Block.edge, h, hb]

/-- A later edge of the same reset serves the load port only. -/
theorem Block.edge_hold (c : Config) (i : BlockIn c) (b : Block) (h : i.rst = true) (hb : b.inReset = true) :
    b.edge c i = { core := loadPort c i b.core, inReset := true } := by
  simp [Block.edge, h, hb]

/-- Without `load_en` the load port does nothing. -/
theorem loadPort_off (c : Config) (i : BlockIn c) (s : State) (h : i.loadEn = false) : loadPort c i s = s := by
  simp [loadPort, h]

/-- With `load_en` the load port writes the addressed cell. -/
theorem loadPort_on (c : Config) (i : BlockIn c) (s : State) (h : i.loadEn = true)
    (ha : i.loadAddr.toNat < c.memWords) :
    loadPort c i s = { s with mem := s.mem.setWord i.loadAddr.toNat i.loadData } := by
  simp [loadPort, h, ha]

/-- The load port writes memory only. -/
@[simp] theorem loadPort_reg (c : Config) (i : BlockIn c) (s : State) (r : RegIndex) :
    (loadPort c i s).reg r = s.reg r := by
  unfold loadPort
  split <;> rfl

@[simp] theorem loadPort_halted (c : Config) (i : BlockIn c) (s : State) : (loadPort c i s).halted = s.halted := by
  unfold loadPort
  split <;> rfl

/-- Every cell after the load port wrote one. -/
theorem loadPort_word (c : Config) (i : BlockIn c) (s : State) (hw : s.mem.wf = true) (h : i.loadEn = true)
    (ha : i.loadAddr.toNat < c.memWords) (k : Nat) :
    (loadPort c i s).mem.word k = if k = i.loadAddr.toNat then i.loadData else s.mem.word k := by
  rw [loadPort_on c i s h ha]
  exact Memory.word_setWord _ _ _ hw

/-- The load port keeps memory canonical. -/
theorem loadPort_wf (c : Config) (i : BlockIn c) (s : State) (h : s.mem.wf = true) :
    (loadPort c i s).mem.wf = true := by
  unfold loadPort
  split
  · exact Memory.wf_setWord _ _ h
  · exact h

/-- The load port keeps every listed byte in the array. -/
theorem loadPort_within (c : Config) (i : BlockIn c) (s : State) (h : s.mem.within c.memWords = true) :
    (loadPort c i s).mem.within c.memWords = true := by
  unfold loadPort
  split
  · next e =>
      simp only [Bool.and_eq_true, decide_eq_true_eq] at e
      exact Memory.within_setWord _ h e.2
  · exact h

end Sys2Proof.Machine
end

