-- ==== Sys2Proof/Laws/Decode.lean ====
section
/-! SUPPORT. The fields of an encoded word and of any word, bit by bit. -/

namespace Sys2Proof

/-- A bit of an RI word: opcode, destination, immediate (R81). -/
theorem getLsbD_immWord (imm : Byte) (d : RegIndex) (op : Opcode) (i : Nat) :
    BitVec.getLsbD (w := 16) (imm ++ d ++ op) i =
      if i < 4 then op.getLsbD i else if i - 4 < 4 then d.getLsbD (i - 4) else imm.getLsbD (i - 4 - 4) := by
  refine (BitVec.getLsbD_append (x := imm ++ d) (y := op) (i := i)).trans ?_
  rw [BitVec.getLsbD_append]

/-- A bit of an RRR word: opcode, R1, R2, R3 (R81). -/
theorem getLsbD_regWord (b a d : RegIndex) (op : Opcode) (i : Nat) :
    BitVec.getLsbD (w := 16) (b ++ a ++ d ++ op) i =
      if i < 4 then op.getLsbD i else if i - 4 < 4 then d.getLsbD (i - 4)
      else if i - 4 - 4 < 4 then a.getLsbD (i - 4 - 4) else b.getLsbD (i - 4 - 4 - 4) := by
  refine (BitVec.getLsbD_append (x := b ++ a ++ d) (y := op) (i := i)).trans ?_
  rw [BitVec.getLsbD_append, BitVec.getLsbD_append]

/-- A bit of `imm8`: R2 is its low nibble (R81). -/
theorem getLsbD_imm8 (f : Fields) (i : Nat) :
    f.imm8.getLsbD i = if i < 4 then f.r2.getLsbD i else f.r3.getLsbD (i - 4) :=
  BitVec.getLsbD_append

theorem opcodeField_immWord (imm : Byte) (d : RegIndex) (op : Opcode) : opcodeField (imm ++ d ++ op) = op := by
  apply BitVec.eq_of_getLsbD_eq
  intro i hi
  rw [opcodeField, BitVec.getLsbD_extractLsb', Nat.zero_add, getLsbD_immWord]
  simp [hi]

theorem opcodeField_regWord (b a d : RegIndex) (op : Opcode) : opcodeField (b ++ a ++ d ++ op) = op := by
  apply BitVec.eq_of_getLsbD_eq
  intro i hi
  rw [opcodeField, BitVec.getLsbD_extractLsb', Nat.zero_add, getLsbD_regWord]
  simp [hi]

theorem Fields.ofWord_immWord (imm : Byte) (d : RegIndex) (op : Opcode) :
    Fields.ofWord (imm ++ d ++ op) = Fields.ofImm d imm := by
  rw [Fields.ofWord, Fields.ofImm, Fields.mk.injEq]
  refine ⟨?_, ?_, ?_⟩ <;> apply BitVec.eq_of_getLsbD_eq <;> intro i hi <;>
    simp only [BitVec.getLsbD_extractLsb', getLsbD_immWord]
  · have h1 : ¬ 4 + i < 4 := by omega
    have h2 : 4 + i - 4 = i := by omega
    simp [hi, h1, h2]
  · have h1 : ¬ 8 + i < 4 := by omega
    have h2 : ¬ 8 + i - 4 < 4 := by omega
    have h3 : 8 + i - 4 - 4 = i := by omega
    simp [hi, h1, h2, h3]
  · have h1 : ¬ 12 + i < 4 := by omega
    have h2 : ¬ 12 + i - 4 < 4 := by omega
    have h3 : 12 + i - 4 - 4 = 4 + i := by omega
    simp [hi, h1, h2, h3]

theorem Fields.ofWord_regWord (b a d : RegIndex) (op : Opcode) :
    Fields.ofWord (b ++ a ++ d ++ op) = Fields.ofRegs d a b := by
  rw [Fields.ofWord, Fields.ofRegs, Fields.mk.injEq]
  refine ⟨?_, ?_, ?_⟩ <;> apply BitVec.eq_of_getLsbD_eq <;> intro i hi <;>
    simp only [BitVec.getLsbD_extractLsb', getLsbD_regWord]
  · have h1 : ¬ 4 + i < 4 := by omega
    have h2 : 4 + i - 4 = i := by omega
    simp [hi, h1, h2]
  · have h1 : ¬ 8 + i < 4 := by omega
    have h2 : ¬ 8 + i - 4 < 4 := by omega
    have h3 : 8 + i - 4 - 4 = i := by omega
    simp [hi, h1, h2, h3]
  · have h1 : ¬ 12 + i < 4 := by omega
    have h2 : ¬ 12 + i - 4 < 4 := by omega
    have h3 : ¬ 12 + i - 4 - 4 < 4 := by omega
    have h4 : 12 + i - 4 - 4 - 4 = i := by omega
    simp [hi, h1, h2, h3, h4]

@[simp] theorem Fields.imm8_ofImm (d : RegIndex) (imm : Byte) : (Fields.ofImm d imm).imm8 = imm := by
  apply BitVec.eq_of_getLsbD_eq
  intro i hi
  rw [getLsbD_imm8]
  split
  · next h => simp [Fields.ofImm, h]
  · next h =>
    have h' : i - 4 < 4 := by omega
    have e : 4 + (i - 4) = i := by omega
    simp [Fields.ofImm, h', e]

/-- The fields of a word with its immediate are the fields of the word. -/
theorem Fields.ofImm_imm8 (f : Fields) : Fields.ofImm f.r1 f.imm8 = f := by
  rw [Fields.ofImm]
  have h2 : f.imm8.extractLsb' 0 4 = f.r2 := by
    apply BitVec.eq_of_getLsbD_eq
    intro i hi
    rw [BitVec.getLsbD_extractLsb', getLsbD_imm8]
    simp [hi]
  have h3 : f.imm8.extractLsb' 4 4 = f.r3 := by
    apply BitVec.eq_of_getLsbD_eq
    intro i hi
    rw [BitVec.getLsbD_extractLsb', getLsbD_imm8]
    simp [hi]
  rw [h2, h3]

end Sys2Proof
end

