-- ==== Sys2Proof/Laws/State.lean ====
section
/-! SUPPORT. What each update of the state does to each field, and reading a register after a write. -/

namespace Sys2Proof.Machine

theorem State.reg_eq (s : State) (i : RegIndex) : s.reg i = s.x[i.toNat]'i.isLt := rfl

@[simp] theorem State.setReg_mem (s : State) (i : RegIndex) (v : Word) : (s.setReg i v).mem = s.mem := rfl
@[simp] theorem State.setReg_ir (s : State) (i : RegIndex) (v : Word) : (s.setReg i v).ir = s.ir := rfl
@[simp] theorem State.setReg_halted (s : State) (i : RegIndex) (v : Word) : (s.setReg i v).halted = s.halted := rfl

@[simp] theorem State.writePort_mem (s : State) (i : RegIndex) (v : Word) (m : Mask) :
    (s.writePort i v m).mem = s.mem := rfl
@[simp] theorem State.writePort_ir (s : State) (i : RegIndex) (v : Word) (m : Mask) :
    (s.writePort i v m).ir = s.ir := rfl
@[simp] theorem State.writePort_halted (s : State) (i : RegIndex) (v : Word) (m : Mask) :
    (s.writePort i v m).halted = s.halted := rfl

@[simp] theorem State.latch_x (s : State) (w : Word) : (s.latch w).x = s.x := rfl
@[simp] theorem State.latch_mem (s : State) (w : Word) : (s.latch w).mem = s.mem := rfl
@[simp] theorem State.latch_ir (s : State) (w : Word) : (s.latch w).ir = w := rfl
@[simp] theorem State.latch_halted (s : State) (w : Word) : (s.latch w).halted = s.halted := rfl
@[simp] theorem State.latch_reg (s : State) (w : Word) (i : RegIndex) : (s.latch w).reg i = s.reg i := rfl
@[simp] theorem State.latch_ip (s : State) (w : Word) : (s.latch w).ip = s.ip := rfl
@[simp] theorem State.latch_latch (s : State) (v w : Word) : (s.latch v).latch w = s.latch w := rfl

@[simp] theorem State.halt_x (s : State) (f : Fault) : (s.halt f).x = s.x := rfl
@[simp] theorem State.halt_mem (s : State) (f : Fault) : (s.halt f).mem = s.mem := rfl
@[simp] theorem State.halt_ir (s : State) (f : Fault) : (s.halt f).ir = s.ir := rfl
@[simp] theorem State.halt_halted (s : State) (f : Fault) : (s.halt f).halted = some f := rfl
@[simp] theorem State.halt_reg (s : State) (f : Fault) (i : RegIndex) : (s.halt f).reg i = s.reg i := rfl
@[simp] theorem State.halt_ip (s : State) (f : Fault) : (s.halt f).ip = s.ip := rfl

@[simp] theorem State.placeAtIp_x (s : State) (w : Word) : (s.placeAtIp w).x = s.x := rfl
@[simp] theorem State.placeAtIp_ir (s : State) (w : Word) : (s.placeAtIp w).ir = s.ir := rfl
@[simp] theorem State.placeAtIp_halted (s : State) (w : Word) : (s.placeAtIp w).halted = s.halted := rfl
@[simp] theorem State.placeAtIp_ip (s : State) (w : Word) : (s.placeAtIp w).ip = s.ip := rfl

@[simp] theorem commitMem_x (g : Signals) (s : State) : (commitMem g s).x = s.x := rfl
@[simp] theorem commitMem_ir (g : Signals) (s : State) : (commitMem g s).ir = s.ir := rfl
@[simp] theorem commitMem_halted (g : Signals) (s : State) : (commitMem g s).halted = s.halted := rfl
@[simp] theorem commitMem_reg (g : Signals) (s : State) (i : RegIndex) : (commitMem g s).reg i = s.reg i := rfl
@[simp] theorem commitMem_ip (g : Signals) (s : State) : (commitMem g s).ip = s.ip := rfl
@[simp] theorem commitMem_mem (g : Signals) (s : State) :
    (commitMem g s).mem = s.mem.write g.maddr g.mdata g.mmask := rfl

/-- A register reads its new value after a write to it, its old value after a write to another (R23, R24). -/
theorem State.reg_setReg (s : State) (i j : RegIndex) (v : Word) :
    (s.setReg i v).reg j = if j = i then v else s.reg j := by
  have h : (j = i) ↔ i.toNat = j.toNat := by rw [eq_comm, BitVec.toNat_inj]
  simp only [State.reg_eq, State.setReg, Vector.getElem_set, h]

@[simp] theorem State.reg_setReg_same (s : State) (i : RegIndex) (v : Word) : (s.setReg i v).reg i = v := by
  simp [State.reg_setReg]

theorem State.reg_setReg_other (s : State) {i j : RegIndex} (v : Word) (h : j ≠ i) :
    (s.setReg i v).reg j = s.reg j := by
  simp [State.reg_setReg, h]

/-- Two states are equal when their registers, memory, latch and fault status are. -/
theorem State.eq_of_reg {s t : State} (hx : ∀ i, s.reg i = t.reg i) (hm : s.mem = t.mem) (hi : s.ir = t.ir)
    (hh : s.halted = t.halted) : s = t := by
  have h : s.x = t.x := by
    apply Vector.ext
    intro i hi
    have := hx (BitVec.ofNat 4 i)
    simpa [State.reg_eq, Nat.mod_eq_of_lt hi] using this
  cases s
  cases t
  simp_all

theorem State.reset_reg (i : RegIndex) : State.reset.reg i = 0 := by
  simp [State.reg_eq, State.reset]

end Sys2Proof.Machine
end

