-- ==== Sys2Proof/Laws/Sequencer.lean ====
section
/-! SUPPORT. What the address check, the fetch, the commit and the common step can do, each said once. -/

namespace Sys2Proof.Machine

/-! ### The address check and the fetch -/

/-- The three outcomes of an address check, in the spec's order. -/
theorem checkAddr_cases (c : Config) (a : Word) (ph : Phase) (ip : Word) :
    (misaligned c a = true ∧ checkAddr c a ph ip = some (.misalignedAddress a ph ip)) ∨
    (misaligned c a = false ∧ outOfRange c a = true ∧ checkAddr c a ph ip = some (.outOfBoundsAddress a ph ip)) ∨
    (misaligned c a = false ∧ outOfRange c a = false ∧ checkAddr c a ph ip = none) := by
  unfold checkAddr
  cases misaligned c a <;> cases outOfRange c a <;> simp

theorem checkAddr_none_iff (c : Config) (a : Word) (ph : Phase) (ip : Word) :
    checkAddr c a ph ip = none ↔ misaligned c a = false ∧ outOfRange c a = false := by
  unfold checkAddr
  cases misaligned c a <;> cases outOfRange c a <;> simp

theorem outOfRange_false_iff (c : Config) (a : Word) : outOfRange c a = false ↔ wordIndex a < c.memWords := by
  simp [outOfRange]

/-- A fault of the address check names the IP it was given. -/
theorem checkAddr_recordIp {c : Config} {a : Word} {ph : Phase} {ip : Word} {f : Fault}
    (h : checkAddr c a ph ip = some f) : f.recordIp = some ip := by
  rcases checkAddr_cases c a ph ip with ⟨_, e⟩ | ⟨_, _, e⟩ | ⟨_, _, e⟩ <;> rw [e] at h <;> cases h <;> rfl

theorem fetch_of_check {c : Config} {s : State} (h : checkAddr c s.ip .fetch s.ip = none) :
    fetch c s = .ok (s.mem.read s.ip) := by
  simp [fetch, h]

theorem fetch_of_fault {c : Config} {s : State} {f : Fault} (h : checkAddr c s.ip .fetch s.ip = some f) :
    fetch c s = .error f := by
  simp [fetch, h]

/-- A fetch succeeds exactly when its address passes the check, and reads the word at the IP. -/
theorem fetch_ok_iff (c : Config) (s : State) (w : Word) :
    fetch c s = .ok w ↔ checkAddr c s.ip .fetch s.ip = none ∧ s.mem.read s.ip = w := by
  unfold fetch
  cases h : checkAddr c s.ip .fetch s.ip <;> simp

@[simp] theorem fetch_latch (c : Config) (s : State) (w : Word) : fetch c (s.latch w) = fetch c s := rfl

@[simp] theorem signals_latch (c : Config) (b : BusTuple) (f : Fields) (s : State) (w : Word) :
    signals c b f (s.latch w) = signals c b f s := rfl

/-! ### The signals of a tuple -/

@[simp] theorem signals_ip (c : Config) (b : BusTuple) (f : Fields) (s : State) : (signals c b f s).ip = s.ip := rfl
@[simp] theorem signals_mmask (c : Config) (b : BusTuple) (f : Fields) (s : State) :
    (signals c b f s).mmask = memMask b.memWe b.memHalf := rfl
@[simp] theorem signals_waddr (c : Config) (b : BusTuple) (f : Fields) (s : State) :
    (signals c b f s).waddr = regAddr f b.regWaddrSrc := rfl
@[simp] theorem signals_wmask (c : Config) (b : BusTuple) (f : Fields) (s : State) :
    (signals c b f s).wmask = regWriteMask c b.regWdataSrc := rfl
@[simp] theorem signals_needsRead (c : Config) (b : BusTuple) (f : Fields) (s : State) :
    (signals c b f s).needsRead = (b.regWe && readsMemory b.regWdataSrc) := rfl

/-- No data source writes with the mask 0b00 (R118). -/
theorem regWriteMask_ne_none (c : Config) (src : RegDataSrc) : regWriteMask c src ≠ maskNone := by
  cases src
  case memLowByte => simp only [regWriteMask]; cases c.memLowByteMode <;> decide
  all_goals simp only [regWriteMask]; decide

@[simp] theorem signals_writesReg (c : Config) (b : BusTuple) (f : Fields) (s : State) :
    (signals c b f s).writesReg = b.regWe := by
  simp [signals, regWriteMask_ne_none]

/-! ### The commit -/

@[simp] theorem commit_mem (g : Signals) (s : State) : (commit g s).mem = s.mem.write g.maddr g.mdata g.mmask := by
  unfold commit commitRegs
  split
  · split <;> rfl
  · rfl

@[simp] theorem commit_ir (g : Signals) (s : State) : (commit g s).ir = s.ir := by
  unfold commit commitRegs
  split
  · split <;> rfl
  · rfl

@[simp] theorem commit_halted (g : Signals) (s : State) : (commit g s).halted = s.halted := by
  unfold commit commitRegs
  split
  · split <;> rfl
  · rfl

/-- Every register after the commit: the write port, else the advance of register 14, else the old value. -/
theorem commit_reg (g : Signals) (s : State) (r : RegIndex) :
    (commit g s).reg r =
      if g.writesReg = true ∧ r = g.waddr then merge (s.reg r) g.wdata g.wmask
      else if r = ipIndex then g.ip + 2 else s.reg r := by
  unfold commit commitRegs State.writePort
  by_cases hw : g.writesReg = true
  · by_cases ha : g.waddr = ipIndex
    · by_cases hr : r = ipIndex <;> simp_all [State.reg_setReg]
    · by_cases hr : r = ipIndex
      · have : ¬ ipIndex = g.waddr := fun e => ha e.symm
        simp_all
      · by_cases hg : r = g.waddr <;> simp_all [State.reg_setReg]
  · simp_all [State.reg_setReg]

/-- The IP after the commit (R124, R125). -/
theorem commit_ip (g : Signals) (s : State) :
    (commit g s).ip =
      if g.writesReg = true ∧ g.waddr = ipIndex then merge s.ip g.wdata g.wmask else g.ip + 2 := by
  rw [State.ip, commit_reg, if_pos rfl]
  by_cases h : g.waddr = ipIndex
  · simp [h, State.ip]
  · have h' : ¬ ipIndex = g.waddr := fun e => h e.symm
    simp [h, h']

theorem commit_latch (g : Signals) (s : State) (w : Word) : (commit g (s.latch w)) = (commit g s).latch w := by
  unfold commit commitRegs
  split
  · split <;> rfl
  · rfl

/-! ### The bus step -/

/-- A tuple's step commits exactly when its data phase is unused or its address passes the check. -/
theorem runBus_next_iff (c : Config) (b : BusTuple) (f : Fields) (s t : State) :
    runBus c b f s = .next t ↔
      dataFault c (signals c b f s) = none ∧ t = commit (signals c b f s) s := by
  unfold runBus raise
  cases h : dataFault c (signals c b f s) <;> simp [eq_comm]

theorem runBus_fault_iff (c : Config) (b : BusTuple) (f : Fields) (s : State) (flt : Fault) :
    runBus c b f s = .fault flt ↔ dataFault c (signals c b f s) = some flt := by
  unfold runBus raise
  cases h : dataFault c (signals c b f s) <;> simp

theorem runBus_of_none {c : Config} {b : BusTuple} {f : Fields} {s : State}
    (h : dataFault c (signals c b f s) = none) : runBus c b f s = .next (commit (signals c b f s) s) := by
  simp [runBus, h]

/-- A tuple that neither reads nor writes memory has no data fault (R121). -/
theorem dataFault_unused {c : Config} {g : Signals} (h : g.usesData = false) : dataFault c g = none := by
  simp [dataFault, h]

theorem dataFault_used {c : Config} {g : Signals} (h : g.usesData = true) :
    dataFault c g = checkAddr c g.maddr .data g.ip := by
  simp [dataFault, h]

/-! ### The step -/

/-- The four ways a step of a core with any parameters can end. -/
theorem stepWith_cases (c : Config) (s : State) :
    (∃ f, s.halted = some f ∧ stepWith c s = .fault f) ∨
    (∃ f, s.halted = none ∧ checkAddr c s.ip .fetch s.ip = some f ∧ stepWith c s = .fault f) ∨
    (s.Fetches c (s.mem.read s.ip) ∧ dispatch c (opcodeField (s.mem.read s.ip)) = none ∧
      stepWith c s = .fault (.unknownOpcode (opcodeField (s.mem.read s.ip)) s.ip)) ∨
    (∃ b, s.Fetches c (s.mem.read s.ip) ∧ dispatch c (opcodeField (s.mem.read s.ip)) = some b ∧
      stepWith c s = runBus c b (.ofWord (s.mem.read s.ip)) (s.latch (s.mem.read s.ip))) := by
  cases hh : s.halted with
  | some f => exact .inl ⟨f, rfl, by simp [stepWith, hh, raise]⟩
  | none =>
    cases hc : checkAddr c s.ip .fetch s.ip with
    | some f => exact .inr (.inl ⟨f, rfl, rfl, by simp [stepWith, hh, fetch_of_fault hc, raise]⟩)
    | none =>
      have hf := fetch_of_check hc
      cases hd : dispatch c (opcodeField (s.mem.read s.ip)) with
      | none => exact .inr (.inr (.inl ⟨⟨hh, hf⟩, rfl, by simp [stepWith, hh, hf, hd, raise]⟩))
      | some b => exact .inr (.inr (.inr ⟨b, ⟨hh, hf⟩, rfl, by simp [stepWith, hh, hf, hd]⟩))

/-- What a fetched word is. -/
theorem State.Fetches.read {c : Config} {s : State} {w : Word} (h : s.Fetches c w) : s.mem.read s.ip = w :=
  ((fetch_ok_iff c s w).mp h.2).2

theorem State.Fetches.check {c : Config} {s : State} {w : Word} (h : s.Fetches c w) :
    checkAddr c s.ip .fetch s.ip = none :=
  ((fetch_ok_iff c s w).mp h.2).1

theorem stepWith_of_dispatch {c : Config} {s : State} {w : Word} {b : BusTuple} (h : s.Fetches c w)
    (hd : dispatch c (opcodeField w) = some b) :
    stepWith c s = runBus c b (.ofWord w) (s.latch w) := by
  simp [stepWith, h.1, h.2, hd]

/-- A committed step, inverted: it fetched a word with a tuple, the data phase had no fault, and the state is the commit. -/
theorem stepWith_next {c : Config} {s t : State} (h : stepWith c s = .next t) :
    ∃ w b, s.Fetches c w ∧ dispatch c (opcodeField w) = some b ∧
      dataFault c (signals c b (.ofWord w) s) = none ∧
      t = (commit (signals c b (.ofWord w) s) s).latch w := by
  rcases stepWith_cases c s with ⟨f, _, e⟩ | ⟨f, _, _, e⟩ | ⟨_, _, e⟩ | ⟨b, hf, hd, e⟩
  · rw [e] at h; cases h
  · rw [e] at h; cases h
  · rw [e] at h; cases h
  · rw [e, runBus_next_iff] at h
    obtain ⟨h1, h2⟩ := h
    rw [signals_latch] at h1 h2
    rw [commit_latch] at h2
    exact ⟨_, b, hf, hd, h1, h2⟩

/-- The one fetched word and tuple of a committed step. -/
theorem stepWith_next_of {c : Config} {s t : State} {w : Word} {b : BusTuple} (hf : s.Fetches c w)
    (hd : dispatch c (opcodeField w) = some b) (h : stepWith c s = .next t) :
    dataFault c (signals c b (.ofWord w) s) = none ∧
      t = (commit (signals c b (.ofWord w) s) s).latch w := by
  rw [stepWith_of_dispatch hf hd, runBus_next_iff, signals_latch, commit_latch] at h
  exact h

/-! ### Where a step stops and where it commits -/

theorem checkAddr_misaligned {c : Config} {a : Word} {ph : Phase} {ip : Word} (h : misaligned c a = true) :
    checkAddr c a ph ip = some (.misalignedAddress a ph ip) := by
  simp [checkAddr, h]

theorem checkAddr_outOfRange {c : Config} {a : Word} {ph : Phase} {ip : Word} (h : misaligned c a = false)
    (h' : outOfRange c a = true) : checkAddr c a ph ip = some (.outOfBoundsAddress a ph ip) := by
  simp [checkAddr, h, h']

theorem State.fetches_of_check {c : Config} {s : State} (hh : s.halted = none) (h : misaligned c s.ip = false)
    (h' : outOfRange c s.ip = false) : s.Fetches c (s.mem.read s.ip) :=
  ⟨hh, fetch_of_check ((checkAddr_none_iff _ _ _ _).mpr ⟨h, h'⟩)⟩

theorem stepWith_of_halted {c : Config} {s : State} {f : Fault} (h : s.halted = some f) :
    stepWith c s = .fault f := by
  simp [stepWith, h, raise]

theorem stepWith_of_fetch_fault {c : Config} {s : State} {f : Fault} (hh : s.halted = none)
    (h : checkAddr c s.ip .fetch s.ip = some f) : stepWith c s = .fault f := by
  simp [stepWith, hh, fetch_of_fault h, raise]

theorem stepWith_of_no_dispatch {c : Config} {s : State} {w : Word} (h : s.Fetches c w)
    (hd : dispatch c (opcodeField w) = none) : stepWith c s = .fault (.unknownOpcode (opcodeField w) s.ip) := by
  simp [stepWith, h.1, h.2, hd, raise]

theorem runBus_of_used_fault {c : Config} {b : BusTuple} {f : Fields} {s : State} {flt : Fault}
    (h : (signals c b f s).usesData = true)
    (hc : checkAddr c (signals c b f s).maddr .data s.ip = some flt) : runBus c b f s = .fault flt := by
  rw [runBus_fault_iff, dataFault_used h]
  exact hc

theorem runBus_of_check {c : Config} {b : BusTuple} {f : Fields} {s : State}
    (hc : (signals c b f s).usesData = true → checkAddr c (signals c b f s).maddr .data s.ip = none) :
    runBus c b f s = .next (commit (signals c b f s) s) := by
  apply runBus_of_none
  cases h : (signals c b f s).usesData
  · exact dataFault_unused h
  · rw [dataFault_used h]
    exact hc h

/-- A fault of a running core names the IP of the step (R206). -/
theorem stepWith_fault_recordIp {c : Config} {s : State} {f : Fault} (hh : s.halted = none)
    (h : stepWith c s = .fault f) : f.recordIp = some s.ip := by
  rcases stepWith_cases c s with ⟨g, e, _⟩ | ⟨g, _, e1, e⟩ | ⟨_, _, e⟩ | ⟨b, _, _, e⟩
  · rw [hh] at e; cases e
  · rw [e] at h; cases h; exact checkAddr_recordIp e1
  · rw [e] at h; cases h; rfl
  · rw [e, runBus_fault_iff] at h
    unfold dataFault at h
    split at h
    · exact checkAddr_recordIp h
    · cases h

/-- The tuples of the reference core's dispatch table. -/
theorem dispatch_reference {op : Opcode} {b : BusTuple} (h : dispatch Config.reference op = some b) :
    b = .li ∨ b = .lih ∨ b = .or := by
  unfold dispatch at h
  split at h
  · cases h; exact .inl rfl
  · split at h
    · cases h; exact .inr (.inl rfl)
    · split at h
      · cases h; exact .inr (.inr rfl)
      · cases h

/-! ### The instructions -/

/-- LI, LIH and OR use no data phase, so each runs to its commit in every state. -/
theorem execLi_eq (d : RegIndex) (imm : Byte) (s : State) :
    execLi d imm s = .next (commit (signals Config.reference .li (.ofImm d imm) s) s) := rfl

theorem execLih_eq (d : RegIndex) (imm : Byte) (s : State) :
    execLih d imm s = .next (commit (signals Config.reference .lih (.ofImm d imm) s) s) := rfl

theorem execOr_eq (d a b : RegIndex) (s : State) :
    execOr d a b s = .next (commit (signals Config.reference .or (.ofRegs d a b) s) s) := rfl

end Sys2Proof.Machine
end

