-- ==== Sys2Proof/Laws/Core.lean ====
section
/-! SUPPORT. One step of the host's machine, unfolded. -/

namespace Sys2Proof.Machine

theorem core_run_next {s t : State} (n : Nat) (h : step s = .next t) :
    Host.Core.run core (n + 1) s = Host.Core.run core n t := by
  have h' : core.step s = .next t := h
  exact (Host.Core.run.eq_2 core s n).trans (by rw [h'])

theorem core_run_fault {s : State} {f : Fault} (n : Nat) (h : step s = .fault f) :
    Host.Core.run core (n + 1) s = .fault f := by
  have h' : core.step s = .fault f := h
  exact (Host.Core.run.eq_2 core s n).trans (by rw [h'])

end Sys2Proof.Machine
end

