-- ==== Sys2Proof/Laws/Exec.lean ====
section
/-! SUPPORT. Everything each instruction can do, said once: it completes, and every register, memory, the latch and the fault
status after it. -/

namespace Sys2Proof.Machine

theorem execLi_spec (d : RegIndex) (imm : Byte) (s : State) :
    ∃ t, execLi d imm s = .next t ∧
      (∀ r, t.reg r = if r = d then wordOf (highByte (s.reg r)) imm
        else if r = ipIndex then s.ip + 2 else s.reg r) ∧
      t.mem = s.mem ∧ t.ir = s.ir ∧ t.halted = s.halted := by
  refine ⟨_, execLi_eq d imm s, fun r => ?_, ?_, by simp, by simp⟩
  · have e : merge (s.reg r) ((Fields.ofImm d imm).imm8.setWidth 16) maskLow = wordOf (highByte (s.reg r)) imm := by
      rw [merge_maskLow]
      simp
    rw [commit_reg, ← e]
    simp [BusTuple.li, regAddr, Fields.ofImm, signals, regWriteData, regWriteMask, maskLow, maskNone]
  · rw [commit_mem]
    exact Memory.write_maskNone _ _ _

theorem execLih_spec (d : RegIndex) (imm : Byte) (s : State) :
    ∃ t, execLih d imm s = .next t ∧
      (∀ r, t.reg r = if r = d then wordOf imm (lowByte (s.reg r))
        else if r = ipIndex then s.ip + 2 else s.reg r) ∧
      t.mem = s.mem ∧ t.ir = s.ir ∧ t.halted = s.halted := by
  refine ⟨_, execLih_eq d imm s, fun r => ?_, ?_, by simp, by simp⟩
  · have e : merge (s.reg r) (wordOf (Fields.ofImm d imm).imm8 0) maskHigh = wordOf imm (lowByte (s.reg r)) := by
      rw [merge_maskHigh]
      simp
    rw [commit_reg, ← e]
    simp [BusTuple.lih, regAddr, Fields.ofImm, signals, regWriteData, regWriteMask, maskHigh, maskNone]
  · rw [commit_mem]
    exact Memory.write_maskNone _ _ _

theorem execOr_spec (d a b : RegIndex) (s : State) :
    ∃ t, execOr d a b s = .next t ∧
      (∀ r, t.reg r = if r = d then s.reg a ||| s.reg b
        else if r = ipIndex then s.ip + 2 else s.reg r) ∧
      t.mem = s.mem ∧ t.ir = s.ir ∧ t.halted = s.halted := by
  refine ⟨_, execOr_eq d a b s, fun r => ?_, ?_, by simp, by simp⟩
  · have e : merge (s.reg r) (s.reg a ||| s.reg b) maskBoth = s.reg a ||| s.reg b := merge_maskBoth _ _
    rw [commit_reg, ← e]
    simp [BusTuple.or, regAddr, Fields.ofRegs, signals, regWriteData, regWriteMask, alu, aluResult, aluOperand,
      maskBoth, maskNone]
  · rw [commit_mem]
    exact Memory.write_maskNone _ _ _

end Sys2Proof.Machine
end

