-- ==== Sys2Proof/Laws/HostPort.lean ====
section
/-! SUPPORT. Where an image's words land, and the outcomes of one host step. -/

namespace Sys2Proof.Machine

theorem imageMem_wf (k : Nat) (image : List Word) (m : Memory) (h : m.wf = true) :
    (imageMem k image m).wf = true := by
  induction image generalizing k m with
  | nil => exact h
  | cons w ws ih => exact ih _ _ (Memory.wf_setWord _ _ h)

theorem imageMem_within (k n : Nat) (image : List Word) (m : Memory) (h : m.within n = true)
    (hk : k + image.length ≤ n) : (imageMem k image m).within n = true := by
  induction image generalizing k m with
  | nil => exact h
  | cons w ws ih =>
    simp only [List.length_cons] at hk
    exact ih _ _ (Memory.within_setWord _ h (by omega)) (by omega)

/-- Cell `j` after placing an image from cell `k` on: the image's word there, else what it held. -/
theorem imageMem_word (k : Nat) (image : List Word) (m : Memory) (j : Nat) (h : m.wf = true) :
    (imageMem k image m).word j =
      if j < k then m.word j else (image[j - k]?).getD (m.word j) := by
  induction image generalizing k m with
  | nil => simp [imageMem]
  | cons w ws ih =>
    rw [imageMem, ih _ _ (Memory.wf_setWord _ _ h), Memory.word_setWord _ _ _ h]
    by_cases h1 : j < k
    · have h2 : j < k + 1 := by omega
      have h3 : ¬ j = k := by omega
      simp [h1, h2, h3]
    · by_cases h2 : j = k
      · subst h2
        simp
      · have h3 : ¬ j < k + 1 := by omega
        have h4 : j - k = (j - (k + 1)) + 1 := by omega
        simp [h1, h2, h3, h4]

/-- Cell `j` of the memory an image is loaded into: the image's word, or zero. -/
theorem resetTo_word (image : List Word) (j : Nat) :
    (resetTo image).mem.word j = (image[j]?).getD 0 := by
  simp [resetTo, imageMem_word 0 image [] j Memory.wf_nil, Memory.word_nil]

@[simp] theorem resetTo_reg (image : List Word) (r : RegIndex) : (resetTo image).reg r = 0 :=
  State.reset_reg r

@[simp] theorem resetTo_halted (image : List Word) : (resetTo image).halted = none := rfl

@[simp] theorem resetTo_ir (image : List Word) : (resetTo image).ir = 0 := rfl

/-- One host step commits or halts with the record of the fault; a core with any parameters refuses nothing. -/
theorem hostStep_cases (c : Config) (s : State) :
    (∃ t, stepWith c s = .next t ∧ hostStep c s = (t, none)) ∨
    (∃ f, stepWith c s = .fault f ∧ hostStep c s = (s.halt f, some f)) := by
  rcases h : stepWith c s with t | f | r
  · exact .inl ⟨t, rfl, by simp [hostStep, h]⟩
  · exact .inr ⟨f, rfl, by simp [hostStep, h]⟩
  · rcases stepWith_cases c s with ⟨f, _, e⟩ | ⟨f, _, _, e⟩ | ⟨_, _, e⟩ | ⟨b, _, _, e⟩
    · rw [e] at h; cases h
    · rw [e] at h; cases h
    · rw [e] at h; cases h
    · rw [e] at h
      unfold runBus raise at h
      split at h <;> cases h

theorem hostStep_next {c : Config} {s t : State} (h : stepWith c s = .next t) : hostStep c s = (t, none) := by
  simp [hostStep, h]

theorem hostStep_fault {c : Config} {s : State} {f : Fault} (h : stepWith c s = .fault f) :
    hostStep c s = (s.halt f, some f) := by
  simp [hostStep, h]

theorem hostRun_zero (c : Config) (s : State) : hostRun c 0 s = (s, none) := rfl

theorem hostRun_next {c : Config} {s t : State} (n : Nat) (h : stepWith c s = .next t) :
    hostRun c (n + 1) s = hostRun c n t := by
  simp [hostRun, hostStep_next h]

theorem hostRun_fault {c : Config} {s : State} {f : Fault} (n : Nat) (h : stepWith c s = .fault f) :
    hostRun c (n + 1) s = (s.halt f, some f) := by
  simp [hostRun, hostStep_fault h]

end Sys2Proof.Machine
end

