-- ==== Sys2Proof/Laws/PerInstr.lean ====
section
/-! SUPPORT. What holds of every instruction as syntax, one lemma per constructor. The family `OpcodeNibble` says that the opcode
nibble of an instruction's word is its parameter's value, whatever the operands (`30_encoding.md` R84). -/

namespace Sys2Proof.Laws

/-- The opcode parameter of an instruction (R84). -/
def opcodeOf (c : Config) : Instr → Opcode
  | .li _ _ => c.opcLi
  | .lih _ _ => c.opcLih
  | .or _ _ _ => c.opcOr

/-- The opcode nibble of the instruction's word, under every opcode assignment. -/
def OpcodeNibble.Statement (i : Instr) : Prop :=
  ∀ c : Config, opcodeField (encodeWith c i) = opcodeOf c i

theorem OpcodeNibble.li (d : RegIndex) (imm : Byte) : OpcodeNibble.Statement (.li d imm) :=
  fun c => opcodeField_immWord imm d c.opcLi

theorem OpcodeNibble.lih (d : RegIndex) (imm : Byte) : OpcodeNibble.Statement (.lih d imm) :=
  fun c => opcodeField_immWord imm d c.opcLih

theorem OpcodeNibble.or (d a b : RegIndex) : OpcodeNibble.Statement (.or d a b) :=
  fun c => opcodeField_regWord b a d c.opcOr

end Sys2Proof.Laws
end

