-- ==== Sys2Proof/Tests/Slice0.lean ====
section
/-! SUPPORT. Checks of the model on fixed values: the words and vectors of `95_test_vectors.md` (computed there by hand from the
rules), the well-formedness smoke tests, and a witness for the hypotheses of every statement. Each runs at most one step. -/

namespace Sys2Proof.Tests

open Sys2Proof.Machine

/-! ### Building a small state and reading an outcome -/

/-- Registers and memory words over the reset state. -/
def mk (regs : List (RegIndex × Word)) (words : List (Nat × Word)) : State :=
  regs.foldl (fun s e => s.setReg e.1 e.2)
    { State.reset with mem := words.foldl (fun m e => Memory.setWord m e.1 e.2) [] }

/-- What an outcome's next state shows through `f`. -/
def see {α : Type} (f : State → α) : Host.Outcome State Fault Refusal → Option α
  | .next t => some (f t)
  | .fault _ => none
  | .refused _ => none

/-- The fault of an outcome. -/
def faultOf : Host.Outcome State Fault Refusal → Option Fault
  | .next _ => none
  | .fault f => some f
  | .refused _ => none

/-- The reference configuration with one route bound. -/
def binding (op : Opcode) (b : BusTuple) : Config :=
  { Config.reference with extraDispatch := [(op, b)] }

/-- The reference configuration under ignore_bit0. -/
def evenReading : Config := { Config.reference with oddAddrPolicy := .ignoreBit0 }

/-- The reference configuration with the whole address space. -/
def fullMemory : Config := { Config.reference with memWords := 32768 }

/-! ### Well-formed configurations: one ill-formed term for each check -/

theorem smoke_reference_wf : Config.reference.wf = true := by decide
theorem smoke_binding_wf : (binding 4 .routeLW).wf = true := by decide
theorem smoke_no_memory : ({ Config.reference with memWords := 0 } : Config).wf = false := by decide
theorem smoke_too_much_memory : ({ Config.reference with memWords := 32769 } : Config).wf = false := by decide
theorem smoke_equal_opcodes : ({ Config.reference with opcLih := 0x1 } : Config).wf = false := by decide
theorem smoke_rebound_opcode : (binding 3 .routeLW).wf = false := by decide
theorem smoke_bound_twice :
    ({ Config.reference with extraDispatch := [(4, .routeLW), (4, .routeSW)] } : Config).wf = false := by decide

/-! ### Decoding: words of section 2.1 and of R93, written out bit by bit -/

theorem test_decode_li : decode 0b0000_0010_0000_0001 = .ok (.li 0 2) := by decide
theorem test_decode_li_fields : decode 0b1111_1111_1111_0001 = .ok (.li 15 0xFF) := by decide
theorem test_decode_lih : decode 0b0001_0010_0101_0010 = .ok (.lih 5 0x12) := by decide
theorem test_decode_or : decode 0b0011_0010_0001_0011 = .ok (.or 1 2 3) := by decide
theorem test_decode_jump : decode 0b0000_0000_1110_0011 = .ok (.or 14 0 0) := by decide
theorem test_decode_illegal : decode 0x123F = .error (.unknownOpcode 0xF) := by decide
theorem test_encode_or : encode (.or 1 2 3) = 0x3213 := by decide
theorem test_table_word : decodeTableWord 16 0x1252 = some (.lih 5 0x12) := by decide
theorem test_table_word_short : decodeTableWord 8 0x1252 = some (.lih 5 0x00) := by decide

/-! ### LI, LIH and OR: sections 2.3 and 2.4 -/

theorem test_li_keeps_high_byte :
    see (fun t => (t.reg 3, t.ip)) (step (mk [(14, 0x0010), (3, 0xABCD)] [(8, 0x1231)])) =
      some (0xAB12, 0x0012) := by decide
theorem test_li_into_ip :
    see State.ip (step (mk [(14, 0x0204)] [(0x102, 0x10E1)])) = some 0x0210 := by decide
theorem test_lih_keeps_low_byte :
    see (fun t => (t.reg 5, t.ip)) (step (mk [(14, 0x0020), (5, 0x00CD)] [(16, 0xAB52)])) =
      some (0xABCD, 0x0022) := by decide
theorem test_lih_into_ip :
    see State.ip (step (mk [(14, 0x0020)] [(16, 0x01E2)])) = some 0x0120 := by decide
theorem test_or_source_is_destination :
    see (fun t => (t.reg 3, t.ip)) (step (mk [(14, 0x0040), (3, 0x00F0), (5, 0x0F0F)] [(32, 0x5333)])) =
      some (0x0FFF, 0x0042) := by decide
theorem test_or_reads_own_address :
    see (fun t => (t.reg 6, t.ip)) (step (mk [(14, 0x0040)] [(32, 0xEE63)])) = some (0x0040, 0x0042) := by decide

/-! ### The sequencer and the faults: section 2.5 -/

theorem test_zero_word_faults : faultOf (step State.reset) = some (.unknownOpcode 0x0 0x0000) := by decide
theorem test_last_word_is_fetched :
    faultOf (step (mk [(14, 0x07FE)] [(1023, 0x1234)])) = some (.unknownOpcode 0x4 0x07FE) := by decide
theorem test_first_word_past_memory_faults :
    faultOf (step (mk [(14, 0x0800)] [])) = some (.outOfBoundsAddress 0x0800 .fetch 0x0800) := by decide
theorem test_alignment_wins_over_bounds :
    faultOf (step (mk [(14, 0x0801)] [])) = some (.misalignedAddress 0x0801 .fetch 0x0801) := by decide
theorem test_ignore_bit0_keeps_odd_ip :
    see (fun t => (t.reg 0, t.ip)) (stepWith evenReading (mk [(14, 0x0003)] [(1, 0x0201)])) =
      some (0x0002, 0x0005) := by decide
theorem test_ip_wraps :
    see State.ip (stepWith fullMemory (mk [(14, 0xFFFE)] [(32767, 0x1113)])) = some 0x0000 := by decide
theorem test_unused_address_is_not_checked :
    see (State.reg · 1) (step (mk [(14, 0x0040), (2, 0x9000), (3, 0x0001)] [(32, 0x3213)])) = some 0x9001 := by decide
theorem test_halted_core_changes_nothing :
    hostStep Config.reference (State.reset.halt (.unknownOpcode 0 0)) =
      (State.reset.halt (.unknownOpcode 0 0), some (.unknownOpcode 0 0)) := by decide
theorem test_zero_flag : (alu .add 0xFFFF 1).zero = true ∧ (alu .add 0x7FFF 1).zero = false := by decide

/-! ### The host surface: W7, P4 -/

theorem test_image_of_full_length_is_accepted :
    (Session.load { Config.reference with memWords := 2 } [1, 2] ⟨[], State.reset⟩).2 = none := by decide
theorem test_image_too_large_is_rejected :
    Session.load { Config.reference with memWords := 2 } [1, 2, 3] ⟨[], State.reset⟩ =
      (⟨[], State.reset⟩, some (.imageTooLarge 3)) := by decide
theorem test_image_word_is_fetched_first :
    see (fun t => (t.reg 0, t.ip)) (step (resetTo [0x0201])) = some (2, 2) := by decide
theorem test_load_port :
    ((⟨State.reset, true⟩ : Block).edge Config.reference ⟨true, true, 3, 0xBEEF⟩).dbgMdata Config.reference 3 =
      0xBEEF := by decide
theorem test_first_reset_edge_clears_and_loads :
    (let b := (⟨mk [(2, 7)] [(5, 0xAAAA)], false⟩ : Block).edge Config.reference ⟨true, true, 3, 0xBEEF⟩
     b.dbgMdata Config.reference 3 = 0xBEEF ∧ b.dbgMdata Config.reference 5 = 0 ∧ b.dbgRdata 2 = 0) := by decide
theorem test_releasing_edge_steps :
    ((⟨resetTo [0x0201], true⟩ : Block).edge Config.reference ⟨false, false, 0, 0⟩).dbgRdata 0 = 2 := by decide
theorem test_address_port_widths :
    addrBits Config.reference = 10 ∧ addrBits fullMemory = 15 ∧
    addrBits { Config.reference with memWords := 1 } = 0 ∧ addrBits { Config.reference with memWords := 5 } = 3 := by
  decide

/-! ### The routes: section 2.6 -/

theorem test_route_lw :
    see (fun t => (t.reg 4, t.ip))
      (stepWith (binding 4 .routeLW) (mk [(14, 0x0040), (2, 0x0006)] [(32, 0x0244), (3, 0xBEEF)])) =
      some (0xBEEF, 0x0042) := by decide
theorem test_route_lw_misaligned :
    faultOf (stepWith (binding 4 .routeLW) (mk [(14, 0x0040), (2, 0x0007)] [(32, 0x0244)])) =
      some (.misalignedAddress 0x0007 .data 0x0040) := by decide
theorem test_route_lw_out_of_bounds :
    faultOf (stepWith (binding 4 .routeLW) (mk [(14, 0x0040), (2, 0x0800)] [(32, 0x0244)])) =
      some (.outOfBoundsAddress 0x0800 .data 0x0040) := by decide
theorem test_route_lb :
    see (State.reg · 4)
      (stepWith (binding 5 .routeLB) (mk [(14, 0x0040), (2, 6), (4, 0x1200)] [(32, 0x0245), (3, 0xBEEF)])) =
      some 0x12EF := by decide
theorem test_route_lb_zext :
    see (State.reg · 4)
      (stepWith { binding 5 .routeLB with memLowByteMode := .zextFull }
        (mk [(14, 0x0040), (2, 6), (4, 0x1200)] [(32, 0x0245), (3, 0xBEEF)])) = some 0x00EF := by decide
theorem test_route_sw :
    see (fun t => (t.mem.word 8, t.ip))
      (stepWith (binding 6 .routeSW) (mk [(14, 0x0040), (2, 0x0010), (3, 0x1234)] [(32, 0x3206), (8, 0xAAAA)])) =
      some (0x1234, 0x0042) := by decide
theorem test_route_sb :
    see (fun t => t.mem.word 8)
      (stepWith (binding 7 .routeSB) (mk [(14, 0x0040), (2, 0x0010), (3, 0x1234)] [(32, 0x3207), (8, 0xAAAA)])) =
      some 0xAA34 := by decide
theorem test_route_store_ip :
    see (fun t => t.mem.word 8)
      (stepWith (binding 8 .routeStoreIP) (mk [(14, 0x0040), (2, 0x0010)] [(32, 0x3208)])) = some 0x0040 := by decide
theorem test_route_own_word :
    see (State.reg · 1)
      (stepWith (binding 4 .routeLoadOwnWord) (mk [(14, 0x0040)] [(32, 0x0014)])) = some 0x0014 := by decide
theorem test_route_store_own_word :
    see (fun t => (t.mem.word 32, t.ir))
      (stepWith (binding 4 .routeStoreOwnWord) (mk [(14, 0x0040), (3, 0x5A5A)] [(32, 0x3004)])) =
      some (0x5A5A, 0x3004) := by decide
theorem test_route_add :
    see (State.reg · 1)
      (stepWith (binding 9 (.routeAdd .r1 .reg1 .reg2)) (mk [(14, 0x0040), (2, 0xFFFF), (3, 2)] [(32, 0x3219)])) =
      some 0x0001 := by decide
theorem test_route_add_link :
    see (fun t => (t.reg 1, t.ip))
      (stepWith (binding 0xB (.routeAdd .r1 .ip .const2)) (mk [(14, 0x0040)] [(32, 0x001B)])) =
      some (0x0042, 0x0042) := by decide
theorem test_route_relative_jump :
    see State.ip
      (stepWith (binding 0xC (.routeAdd .ip .ip .reg1)) (mk [(14, 0x0040), (2, 0x0010)] [(32, 0x020C)])) =
      some 0x0050 := by decide
theorem test_route_swap :
    see (fun t => (t.reg 1, t.mem.word 8))
      (stepWith (binding 4 .routeSwap) (mk [(14, 0x0040), (2, 0x0010), (3, 0x1234)] [(32, 0x3214), (8, 0xAAAA)])) =
      some (0xAAAA, 0x1234) := by decide
theorem test_route_nop :
    see State.ip (stepWith (binding 4 .routeNop) (mk [(14, 0x0040)] [(32, 0x3214)])) = some 0x0042 := by decide

/-! ### Memory keeps its canonical form on fixed values -/

theorem test_memory_zero_write_removes : Memory.setWord [(4, 0x34), (5, 0x12)] 2 0 = [] := by decide
theorem test_memory_sorted : Memory.setWord [(4, 0x34)] 0 0x1200 = [(1, 0x12), (4, 0x34)] := by decide

/-! ### Witnesses: states and operands that meet the hypotheses of each statement -/

/-- A running core at 0x0040 that fetches `w`, with some register values. -/
def at40 (w : Word) : State := mk [(14, 0x0040), (2, 0x0010), (3, 0x1234)] [(32, w), (8, 0xAAAA)]

/-- The tuples whose data phase is used, at an in-bounds address. -/
def swConfig : Config := binding 6 .routeSW

theorem witness_LiWritesLowByteAndKeepsHighByte :
    (3 : RegIndex) ≠ ipIndex ∧ (14 : RegIndex) = ipIndex ∧
    (see State.ip (exec (.li 14 0x11) (at40 0x11E1)) = some 0x0011 ∧
      checkAddr Config.reference 0x0011 .fetch 0x0011 = some (.misalignedAddress 0x0011 .fetch 0x0011)) := by decide
theorem witness_LihWritesHighByteAndKeepsLowByte :
    (5 : RegIndex) ≠ ipIndex ∧ (14 : RegIndex) = ipIndex ∧
    (see State.ip (exec (.lih 14 0x08) (at40 0x08E2)) = some 0x0840 ∧
      checkAddr Config.reference 0x0840 .fetch 0x0840 = some (.outOfBoundsAddress 0x0840 .fetch 0x0840)) := by decide
theorem witness_OrWritesUnionOfStartValues :
    (7 : RegIndex) ≠ ipIndex ∧ (14 : RegIndex) = ipIndex ∧
    (see State.ip (exec (.or 14 2 3) (mk [(2, 0x0101), (3, 0x0010)] [])) = some 0x0111 ∧
      checkAddr Config.reference 0x0111 .fetch 0x0111 = some (.misalignedAddress 0x0111 .fetch 0x0111)) := by decide
theorem witness_JumpIdiomFetchesNextAtTarget :
    (at40 0x22E3).halted = none ∧
    checkAddr Config.reference ((at40 0x22E3).reg 2) .fetch ((at40 0x22E3).reg 2) = none := by decide
theorem witness_OrOfIpStoresOwnAddress : (6 : RegIndex) ≠ ipIndex := by decide
theorem witness_SelfLoopIsSteady :
    (at40 0xEEE3).Fetches Config.reference 0xEEE3 ∧ decode 0xEEE3 = .ok (.or ipIndex ipIndex ipIndex) :=
  ⟨⟨rfl, rfl⟩, rfl⟩
theorem witness_DecodeOfEncodeIsTheInstruction :
    (binding 15 .routeLW).wf = true ∧ (Instr.or 15 0 14).wf = true := by decide
theorem witness_EncodeOfDecodedIsTheWord : decodeWith Config.reference 0xFFF1 = .ok (.li 15 0xFF) := by decide
theorem witness_UnassignedOpcodesAreIllegal :
    (opcodeField 0x0000 = 0x0 ∧ State.reset.Fetches Config.reference 0x0000) ∧
    (0x4 ≤ opcodeField 0xFFF4 ∧ (at40 0xFFF4).Fetches Config.reference 0xFFF4) ∧
    (0x4 ≤ opcodeField 0x123F ∧ (at40 0x123F).Fetches Config.reference 0x123F) :=
  ⟨⟨by decide, rfl, rfl⟩, ⟨by decide, rfl, rfl⟩, ⟨by decide, rfl, rfl⟩⟩
theorem witness_DispatchTableIsTotalMap :
    swConfig.wf = true ∧ ((6 : Opcode), BusTuple.routeSW) ∈ swConfig.extraDispatch ∧
    ((15 : Opcode) ≠ swConfig.opcLi ∧ (15 : Opcode) ≠ swConfig.opcLih ∧ (15 : Opcode) ≠ swConfig.opcOr ∧
      swConfig.extraDispatch.all (fun e => e.1 != 15) = true) := by decide
theorem witness_UnusedTupleFieldsHaveNoEffect :
    (let b : BusTuple := { BusTuple.li with memHalf := true, aluOp := .or, memAddrSrc := .reg1 }
     b ≠ .li ∧ b.regWe = true ∧ b.regWaddrSrc = .r1 ∧ b.memWe = false ∧ b.regWdataSrc = .immLow) ∧
    (let b : BusTuple := { BusTuple.lih with regRaddr1Src := .ip }
     b ≠ .lih ∧ b.regWe = true ∧ b.regWaddrSrc = .r1 ∧ b.memWe = false ∧ b.regWdataSrc = .immHigh) ∧
    (let b : BusTuple := { BusTuple.or with memHalf := true, memAddrSrc := .reg1, memDataSrc := .ip }
     b ≠ .or ∧ b.regWe = true ∧ b.regWaddrSrc = .r1 ∧ b.memWe = false ∧ b.regWdataSrc = .alu ∧
       b.regRaddr1Src = .r2 ∧ b.regRaddr2Src = .r3 ∧ b.aluOp = .or ∧ b.aluASrc = .reg1 ∧ b.aluBSrc = .reg2) := by
  decide
theorem witness_StepRunsTheDecodedInstruction :
    (at40 0x3213).Fetches Config.reference 0x3213 ∧ decode 0x3213 = .ok (.or 1 2 3) := ⟨⟨rfl, rfl⟩, rfl⟩
theorem witness_PlacedWordIsTheNextInstruction :
    (mk [(14, 0x0801)] [(8, 0xAAAA)]).mem.wf = true ∧ decodeTableWord 16 0x1252 = some (.lih 5 0x12) := by decide

theorem witness_FaultPriorityOrder_fetch :
    (mk [(14, 0x0801)] []).halted = none ∧ misaligned Config.reference 0x0801 = true ∧
    (mk [(14, 0x0800)] []).ip = 0x0800 ∧ misaligned Config.reference 0x0800 = false ∧
    outOfRange Config.reference 0x0800 = true ∧ outOfRange Config.reference 0x07FE = false := by decide
theorem witness_FaultPriorityOrder_decode :
    (at40 0x0006).halted = none ∧ (at40 0x0006).mem.read (at40 0x0006).ip = 0x0006 ∧
    misaligned swConfig (at40 0x0006).ip = false ∧ outOfRange swConfig (at40 0x0006).ip = false ∧
    dispatch Config.reference 0x6 = none ∧ dispatch swConfig 0x6 = some .routeSW := by decide
theorem witness_FaultPriorityOrder_data :
    (let g := signals swConfig .routeSW (.ofWord 0x3206) (mk [(2, 0x0801)] [])
     g.usesData = true ∧ misaligned swConfig g.maddr = true) ∧
    (let g := signals swConfig .routeSW (.ofWord 0x3206) (mk [(2, 0x0800)] [])
     g.usesData = true ∧ misaligned swConfig g.maddr = false ∧ outOfRange swConfig g.maddr = true) ∧
    (let g := signals swConfig .routeSW (.ofWord 0x3206) (mk [(2, 0x07FE)] [])
     g.usesData = true ∧ misaligned swConfig g.maddr = false ∧ outOfRange swConfig g.maddr = false) ∧
    (signals swConfig .or (.ofWord 0x3213) (mk [(2, 0x0801)] [])).usesData = false := by decide
theorem witness_UnknownOpcodeFaultNamesOpcodeAndIp :
    (at40 0x0007).Fetches swConfig 0x0007 ∧ dispatch swConfig (opcodeField 0x0007) = none ∧
    (at40 0x1234).Fetches Config.reference 0x1234 ∧ 0x4 ≤ opcodeField 0x1234 :=
  ⟨⟨rfl, rfl⟩, by decide, ⟨rfl, rfl⟩, by decide⟩
theorem witness_OutOfBoundsFaultOnUsedAccess_fetch :
    (mk [(14, 0x0800)] []).halted = none ∧ misaligned Config.reference 0x0800 = false ∧
    Config.reference.memWords ≤ (0x0800 : Word).toNat / 2 ∧ (mk [(14, 0x07FE)] []).ip = 0x07FE ∧
    (mk [(14, 0x0800)] []).ip = 0x0800 := by decide
theorem witness_OutOfBoundsFaultOnUsedAccess_data :
    (mk [(14, 0x0040), (2, 0x0800)] [(32, 0x3206)]).Fetches swConfig 0x3206 ∧
    dispatch swConfig (opcodeField 0x3206) = some .routeSW ∧
    (let g := signals swConfig .routeSW (.ofWord 0x3206) (mk [(14, 0x0040), (2, 0x0800)] [(32, 0x3206)])
     g.usesData = true ∧ misaligned swConfig g.maddr = false ∧ swConfig.memWords ≤ g.maddr.toNat / 2) :=
  ⟨⟨rfl, rfl⟩, by decide, by decide⟩
theorem witness_MisalignedFaultOnlyUnderFaultPolicy :
    Config.reference.oddAddrPolicy = .fault ∧ (mk [(14, 0x0001)] []).ip.getLsbD 0 = true ∧
    evenReading.oddAddrPolicy = .ignoreBit0 ∧ (mk [(14, 0x0001)] []).halted = none := by decide
theorem witness_MisalignedFaultOnlyUnderFaultPolicy_data :
    (mk [(14, 0x0040), (2, 0x0007)] [(32, 0x3206)]).Fetches swConfig 0x3206 ∧ swConfig.oddAddrPolicy = .fault ∧
    dispatch swConfig (opcodeField 0x3206) = some .routeSW ∧
    (let g := signals swConfig .routeSW (.ofWord 0x3206) (mk [(14, 0x0040), (2, 0x0007)] [(32, 0x3206)])
     g.usesData = true ∧ g.maddr.getLsbD 0 = true) :=
  ⟨⟨rfl, rfl⟩, by decide, by decide, by decide⟩
theorem witness_IgnoreBit0FetchesTheEvenWord :
    (let s := mk [(14, 0x07FF)] [(1023, 0x0201)]
     evenReading.oddAddrPolicy = .ignoreBit0 ∧ s.halted = none ∧ s.ip.toNat / 2 < evenReading.memWords ∧
     dispatch evenReading (opcodeField (s.mem.word (s.ip.toNat / 2))) = some .li ∧
     regAddr (.ofWord (s.mem.word (s.ip.toNat / 2))) BusTuple.li.regWaddrSrc ≠ ipIndex ∧
     see State.ip (stepWith evenReading s) = some 0x0801) := by decide
theorem witness_StepCompletesExactlyOnLegalWords :
    (at40 0x3213).halted = none ∧ (at40 0x3213).ip.toNat % 2 = 0 ∧ (at40 0x3213).ip.toNat < 0x0800 ∧
    opcodeField ((at40 0x3213).mem.read (at40 0x3213).ip) = 0x3 ∧ faultOf (step (at40 0x3213)) = none := by decide
theorem witness_StepIsTotal : State.reset.halted = none := rfl
theorem witness_OnlyUsedDataAddressesAreChecked :
    (signals swConfig .or (.ofWord 0x3213) (at40 0x3213)).usesData = false ∧
    (let g := signals swConfig .routeSW (.ofWord 0x3206) (mk [(2, 0x0800)] [])
     g.usesData = true ∧ checkAddr swConfig g.maddr .data 0 = some (.outOfBoundsAddress 0x0800 .data 0)) ∧
    (let g := signals swConfig .routeSW (.ofWord 0x3206) (at40 0x3206)
     g.usesData = true ∧ checkAddr swConfig g.maddr .data 0x0040 = none) := by decide
theorem witness_RoutingTables :
    BusTuple.li.regWdataSrc ≠ .memLowByte ∧ BusTuple.li.regWdataSrc ≠ .memWord ∧
    BusTuple.routeLW.regWe = true ∧ BusTuple.routeLW.regWdataSrc = .memWord ∧
    (let g := signals swConfig .routeLW (.ofWord 0x0244) (at40 0x0244)
     checkAddr swConfig g.maddr .data 0x0040 = none ∧ g.wdata = 0xAAAA) := by decide
theorem witness_RegisterWriteSources :
    Config.reference.memLowByteMode = .lowMask ∧
    ({ Config.reference with memLowByteMode := .zextFull } : Config).memLowByteMode = .zextFull := by decide

/-- One committed step with a register write and one with a memory write serve the statements about a committed step:
RegisterCommitIsAMaskedMerge, IpIsWrittenOrAdvancedNeverBoth, MemoryAfterACommittedStep, AtMostOneRegisterBesideIpChanges,
NextFetchSeesTheStepsStore, EvenIpKeptByEvenWrites, EveryStepKeepsMemoryWellFormed. -/
theorem witness_committed_register_write :
    (at40 0x12E1).Fetches swConfig 0x12E1 ∧ dispatch swConfig (opcodeField 0x12E1) = some .li ∧
    see State.ip (stepWith swConfig (at40 0x12E1)) = some 0x0012 ∧
    (signals swConfig .li (.ofWord 0x12E1) (at40 0x12E1)).waddr = ipIndex ∧ BusTuple.li.regWe = true ∧
    (signals swConfig .li (.ofWord 0x12E1) (at40 0x12E1)).wmask ≠ 0b00 ∧
    (signals swConfig .li (.ofWord 0x12E1) (at40 0x12E1)).mmask = 0b00 ∧ (at40 0x12E1).evenIp = true ∧
    (merge (at40 0x12E1).ip (signals swConfig .li (.ofWord 0x12E1) (at40 0x12E1)).wdata
      (signals swConfig .li (.ofWord 0x12E1) (at40 0x12E1)).wmask).getLsbD 0 = false :=
  ⟨⟨rfl, rfl⟩, by decide, by decide, by decide, by decide, by decide, by decide, by decide, by decide⟩
theorem witness_committed_memory_write :
    (at40 0x3206).Fetches swConfig 0x3206 ∧ dispatch swConfig (opcodeField 0x3206) = some .routeSW ∧
    see (fun t => t.mem.word 8) (stepWith swConfig (at40 0x3206)) = some 0x1234 ∧ BusTuple.routeSW.regWe = false ∧
    (at40 0x3206).mem.wf = true ∧ (at40 0x3206).wf swConfig = true ∧
    see (fun t => checkAddr swConfig t.ip .fetch t.ip) (stepWith swConfig (at40 0x3206)) = some none :=
  ⟨⟨rfl, rfl⟩, by decide, by decide, by decide, by decide, by decide, by decide⟩
/-- The store of a step on the word its next step fetches (NextFetchSeesTheStepsStore, RouteStoreWord). -/
theorem witness_store_on_next_word :
    (let s := mk [(14, 0x0040), (2, 0x0042), (3, 0x1234)] [(32, 0x3206)]
     s.mem.wf = true ∧ checkAddr swConfig (s.reg 2) .data s.ip = none ∧
     checkAddr swConfig (s.ip + 2) .fetch (s.ip + 2) = none ∧ wordIndex (s.ip + 2) = wordIndex (s.reg 2) ∧
     see (fun t => t.mem.read t.ip) (stepWith swConfig s) = some 0x1234) := by decide
theorem witness_IpIsWrittenOrAdvancedNeverBoth :
    (mk [(14, 0x0204)] [(0x102, 0x10E1)]).Fetches Config.reference 0x10E1 ∧
    (mk [(14, 0x0204)] [(0x102, 0x10E1)]).ip = 0x0204 := ⟨⟨rfl, rfl⟩, rfl⟩
theorem witness_ReferenceCoreNeverChangesMemory :
    see State.mem (step (at40 0x3213)) = some (at40 0x3213).mem := by decide
theorem witness_EveryStepKeepsMemoryWellFormed :
    (at40 0x3213).wf Config.reference = true ∧ see (State.reg · 1) (step (at40 0x3213)) = some 0x1234 := by decide
theorem witness_IpWrapNeedsFullMemory :
    fullMemory.wf = true ∧ (mk [(14, 0xFFFE)] [(32767, 0x1113)]).Fetches fullMemory 0x1113 ∧
    0xFFFE ≤ (mk [(14, 0xFFFE)] [(32767, 0x1113)]).ip.toNat ∧
    dispatch fullMemory (opcodeField 0x1113) = some .or ∧
    regAddr (.ofWord 0x1113) BusTuple.or.regWaddrSrc ≠ ipIndex ∧
    see State.ip (stepWith fullMemory (mk [(14, 0xFFFE)] [(32767, 0x1113)])) = some 0x0000 ∧
    (mk [(14, 0x0800)] []).halted = none ∧ 0x0800 ≤ (mk [(14, 0x0800)] []).ip.toNat :=
  ⟨by decide, ⟨rfl, rfl⟩, by decide, by decide, by decide, by decide, by decide, by decide⟩
theorem witness_FaultCommitsNothingAndIsPrecise :
    (at40 0x0004).halted = none ∧
    hostStep Config.reference (at40 0x0004) =
      ((at40 0x0004).halt (.unknownOpcode 4 0x0040), some (.unknownOpcode 4 0x0040)) := by decide
theorem witness_HaltedCoreStaysHalted :
    (State.reset.halt (.unknownOpcode 4 0)).halted = some (.unknownOpcode 4 0) ∧
    (⟨[], State.reset.halt (.unknownOpcode 4 0)⟩ : Session).core = State.reset.halt (.unknownOpcode 4 0) := by decide
theorem witness_LoadedImageIsWellFormed :
    loadImage { Config.reference with memWords := 2 } [0x0201, 0x00E3] = .ok (resetTo [0x0201, 0x00E3]) := rfl
theorem witness_ImageLoadPlacesWordsThenResets :
    (let c : Config := { Config.reference with memWords := 2 }
     c.memWords < [1, 2, 3].length ∧ [1, 2].length ≤ c.memWords ∧ 1 < [1, 2].length ∧
     ([1].length ≤ 1 ∧ 1 < c.memWords)) := by decide
theorem witness_ResetReturnsToTheLoadedImage :
    (⟨[0x0201], at40 0x3213⟩ : Session).image.length ≤ Config.reference.memWords ∧
    0 < (⟨[0x0201], at40 0x3213⟩ : Session).image.length ∧
    (⟨[0x0201], at40 0x3213⟩ : Session).image.length ≤ 1023 ∧ 1023 < Config.reference.memWords := by decide
theorem witness_FirstFetchAfterResetIsWordZero :
    loadImage { Config.reference with memWords := 1 } [0x0201] = .ok (resetTo [0x0201]) := rfl
theorem witness_LoadPortEqualsImageLoad :
    (⟨true, false, 0, 0⟩ : BlockIn fullMemory).rst = true ∧ (⟨true, false, 0, 0⟩ : BlockIn fullMemory).loadEn = false ∧
    (⟨State.reset, false⟩ : Block).inReset = false ∧ [(0x0201 : Word)].length ≤ fullMemory.memWords ∧
    [(0x0201 : Word)] ≠ [] ∧ (32767 : BitVec (addrBits fullMemory)).toNat < fullMemory.memWords ∧
    (⟨false, false, 0, 0⟩ : BlockIn fullMemory).rst = false := by decide
theorem witness_BlockPortsReachEveryWord :
    fullMemory.memWords = 2 ^ 15 ∧ 32767 < fullMemory.memWords ∧
    (at40 0x3213).mem.wf = true ∧ (⟨at40 0x3213, true⟩ : Block).inReset = true ∧
    (⟨at40 0x3213, false⟩ : Block).inReset = false ∧ (⟨true, false, 0, 0⟩ : BlockIn fullMemory).rst = true ∧
    (⟨true, false, 0, 0⟩ : BlockIn fullMemory).loadEn = false ∧
    (let i : BlockIn fullMemory := ⟨true, true, 32767, 0xBEEF⟩
     i.rst = true ∧ i.loadEn = true ∧ i.loadAddr.toNat < fullMemory.memWords) := by decide
theorem witness_FaultSignalsShowTheRecord :
    (⟨State.reset, false⟩ : Block).core.halted = none ∧
    (⟨State.reset.halt (.unknownOpcode 4 8), false⟩ : Block).core.halted = some (.unknownOpcode 4 8) ∧
    (⟨State.reset.halt (.outOfBoundsAddress 0x800 .data 8), false⟩ : Block).core.halted =
      some (.outOfBoundsAddress 0x800 .data 8) ∧
    (⟨State.reset.halt (.misalignedAddress 7 .fetch 7), false⟩ : Block).core.halted =
      some (.misalignedAddress 7 .fetch 7) := by decide
theorem witness_RouteLoads :
    (let b := BusTuple.routeLW
     b.regWe = true ∧ b.regWaddrSrc = .r1 ∧ b.regWdataSrc = .memWord ∧ b.regRaddr1Src = .r2 ∧ b.memWe = false ∧
       b.memAddrSrc = .reg1) ∧
    (let b := BusTuple.routeLB
     b.regWe = true ∧ b.regWaddrSrc = .r1 ∧ b.regWdataSrc = .memLowByte ∧ b.regRaddr1Src = .r2 ∧ b.memWe = false ∧
       b.memAddrSrc = .reg1) ∧
    checkAddr swConfig (mk [(2, 0x07FE)] [] |>.reg 2) .data 0 = none ∧
    checkAddr swConfig (mk [(2, 0x0800)] [] |>.reg 2) .data 0 = some (.outOfBoundsAddress 0x0800 .data 0) ∧
    swConfig.memLowByteMode = .lowMask ∧
    ({ swConfig with memLowByteMode := .zextFull } : Config).memLowByteMode = .zextFull := by decide
theorem witness_RouteStores :
    (let b := BusTuple.routeSW
     b.regWe = false ∧ b.memWe = true ∧ b.memHalf = false ∧ b.memAddrSrc = .reg1 ∧ b.memDataSrc = .reg2 ∧
       b.regRaddr1Src = .r2 ∧ b.regRaddr2Src = .r3) ∧
    (let b := BusTuple.routeSB
     b.regWe = false ∧ b.memWe = true ∧ b.memHalf = true ∧ b.memAddrSrc = .reg1 ∧ b.memDataSrc = .reg2 ∧
       b.regRaddr1Src = .r2 ∧ b.regRaddr2Src = .r3) ∧
    (at40 0x3206).mem.wf = true ∧ checkAddr swConfig ((at40 0x3206).reg 2) .data 0 = none ∧
    checkAddr swConfig (mk [(2, 0x0007)] [] |>.reg 2) .data 0 = some (.misalignedAddress 7 .data 0) := by decide
theorem witness_RouteStoreIp :
    BusTuple.routeStoreIP.memWe = true ∧ BusTuple.routeStoreIP.memDataSrc = .ip ∧ (at40 0x3208).mem.wf = true ∧
    checkAddr swConfig (signals swConfig .routeStoreIP (.ofWord 0x3208) (at40 0x3208)).maddr .data
      (at40 0x3208).ip = none := by decide
theorem witness_RouteIpAddressed :
    (at40 0x0014).Fetches (binding 4 .routeLoadOwnWord) 0x0014 ∧ (at40 0x0014).mem.wf = true ∧
    dispatch (binding 4 .routeLoadOwnWord) (opcodeField 0x0014) = some .routeLoadOwnWord ∧
    BusTuple.routeLoadOwnWord.memAddrSrc = .ip ∧ BusTuple.routeLoadOwnWord.regWe = true ∧
    BusTuple.routeLoadOwnWord.regWdataSrc = .memWord :=
  ⟨⟨rfl, rfl⟩, by decide, by decide, rfl, rfl, rfl⟩
theorem witness_RouteIpAddressed_store :
    (at40 0x3004).Fetches (binding 4 .routeStoreOwnWord) 0x3004 ∧
    dispatch (binding 4 .routeStoreOwnWord) (opcodeField 0x3004) = some .routeStoreOwnWord ∧
    BusTuple.routeStoreOwnWord.memAddrSrc = .ip ∧ BusTuple.routeStoreOwnWord.memWe = true ∧
    BusTuple.routeStoreOwnWord.memHalf = false ∧ BusTuple.routeStoreOwnWord.memDataSrc = .reg2 :=
  ⟨⟨rfl, rfl⟩, by decide, rfl, rfl, rfl, rfl⟩
theorem witness_RouteAdd :
    (let b := BusTuple.routeAdd .ip .ip .reg1
     b.regWe = true ∧ b.regWdataSrc = .alu ∧ b.aluOp = .add ∧ b.memWe = false) := by decide
theorem witness_CombinedAndEmptyRoutes :
    (BusTuple.routeSwap.regWe = true ∧ BusTuple.routeSwap.regWdataSrc = .memWord ∧ BusTuple.routeSwap.memWe = true ∧
      (at40 0x3214).mem.wf = true ∧
      checkAddr swConfig (signals swConfig .routeSwap (.ofWord 0x3214) (at40 0x3214)).maddr .data 0 = none ∧
      checkAddr swConfig (signals swConfig .routeSwap (.ofWord 0x3214) (mk [(2, 1)] [])).maddr .data 0 =
        some (.misalignedAddress 1 .data 0)) ∧
    BusTuple.routeNop.regWe = false ∧ BusTuple.routeNop.memWe = false := by decide

end Sys2Proof.Tests
end

/-! SUPPORT. The words no instruction claims (`30_encoding.md` R87): when the decoder and DISPATCH reject an opcode nibble,
and what a step that fetches such a word does. -/

namespace Sys2Proof

open Sys2Proof.Machine

/-- The decoder rejects a word exactly when its opcode nibble is none of the three evidenced ones (R84, R87). -/
theorem decodeWith_eq_error_iff (c : Config) (w : Word) :
    decodeWith c w = .error (.unknownOpcode (opcodeField w)) ↔
      opcodeField w ≠ c.opcLi ∧ opcodeField w ≠ c.opcLih ∧ opcodeField w ≠ c.opcOr := by
  simp only [decodeWith]
  split_ifs with hli hlih hor
  · simp [hli]
  · simp [hlih]
  · simp [hor]
  · simp [hli, hlih, hor]

/-- DISPATCH maps an opcode to none exactly when it is neither evidenced nor bound by EXTRA_DISPATCH (R85). -/
theorem dispatch_eq_none_iff (c : Config) (op : Opcode) :
    dispatch c op = none ↔
      (op ≠ c.opcLi ∧ op ≠ c.opcLih ∧ op ≠ c.opcOr) ∧ c.extraDispatch.lookup op = none := by
  simp only [dispatch]
  split_ifs with hli hlih hor
  · simp [hli]
  · simp [hlih]
  · simp [hor]
  · simp [hli, hlih, hor]

/-- The opcodes the default assignment leaves unassigned, as the spec lists them and as what they differ from (R87). -/
theorem unassigned_iff_ne_reference (op : Opcode) :
    (op = 0x0 ∨ 0x4 ≤ op) ↔
      op ≠ Config.reference.opcLi ∧ op ≠ Config.reference.opcLih ∧ op ≠ Config.reference.opcOr := by
  unfold Config.reference
  revert op
  decide

theorem decode_eq_error_iff_unassigned (w : Word) :
    decode w = .error (.unknownOpcode (opcodeField w)) ↔ (opcodeField w = 0x0 ∨ 0x4 ≤ opcodeField w) := by
  rw [decode, decodeWith_eq_error_iff, unassigned_iff_ne_reference]

theorem dispatch_reference_eq_none_iff_unassigned (op : Opcode) :
    dispatch Config.reference op = none ↔ (op = 0x0 ∨ 0x4 ≤ op) := by
  have hextra : Config.reference.extraDispatch.lookup op = none := rfl
  rw [dispatch_eq_none_iff, unassigned_iff_ne_reference, and_iff_left hextra]

/-- A step that fetches a word the decoder rejects stops with the fault of the rejection (R201). -/
theorem Machine.step_of_decode_error {s : State} {w : Word} {e : DecodeError} (hf : s.Fetches Config.reference w)
    (hd : decode w = .error e) : step s = .fault (undecodable s e) := by
  obtain ⟨hrun, hfetch⟩ := hf
  simp [step, hrun, hfetch, hd, raise]

/-- Settles O10: the decoder and DISPATCH both reject exactly the opcodes outside the default assignment, and a step that
fetches a rejected word raises the decoder's fault. -/
theorem unassignedOpcodesAreIllegal : Obligations.UnassignedOpcodesAreIllegal := by
  intro w
  refine ⟨(decode_eq_error_iff_unassigned w).symm, (dispatch_reference_eq_none_iff_unassigned _).symm, ?_⟩
  intro hop s hf
  exact step_of_decode_error hf ((decode_eq_error_iff_unassigned w).mpr hop)

end Sys2Proof

/-! SUPPORT. The common step (`40_sequencer.md`): it is total (R128), what a committed step leaves in the registers (R123) and
in memory (R122), and how the signals of a cycle are routed (R115 to R120). -/

namespace Sys2Proof

open Sys2Proof.Machine

/-! ### Totality (R128) -/

theorem Machine.runBus_next_or_fault (c : Config) (b : BusTuple) (f : Fields) (s : State) :
    (∃ t, runBus c b f s = .next t) ∨ (∃ flt, runBus c b f s = .fault flt) := by
  cases h : dataFault c (signals c b f s) with
  | none => exact .inl ⟨_, runBus_of_none h⟩
  | some flt => exact .inr ⟨flt, (runBus_fault_iff c b f s flt).mpr h⟩

theorem Machine.stepWith_next_or_fault (c : Config) (s : State) :
    (∃ t, stepWith c s = .next t) ∨ (∃ f, stepWith c s = .fault f) := by
  rcases stepWith_cases c s with ⟨f, _, e⟩ | ⟨f, _, _, e⟩ | ⟨_, _, e⟩ | ⟨b, _, _, e⟩
  · exact .inr ⟨f, e⟩
  · exact .inr ⟨f, e⟩
  · exact .inr ⟨_, e⟩
  · rw [e]
    exact runBus_next_or_fault c b _ _

/-- Every instruction of the reference core has a meaning, and that meaning completes. -/
theorem Machine.exec_next (i : Instr) (s : State) : ∃ t, exec i s = .next t := by
  cases i with
  | li d imm => exact ⟨_, execLi_eq d imm s⟩
  | lih d imm => exact ⟨_, execLih_eq d imm s⟩
  | or d a b => exact ⟨_, execOr_eq d a b s⟩

/-- A step that fetches a word the decoder accepts runs its instruction with the word in the latch (R110, R113). -/
theorem Machine.step_of_decode_ok {s : State} {w : Word} {i : Instr} (hf : s.Fetches Config.reference w)
    (hd : decode w = .ok i) : step s = exec i (s.latch w) := by
  obtain ⟨hrun, hfetch⟩ := hf
  simp [step, hrun, hfetch, hd]

theorem Machine.step_of_fetch_error {s : State} {f : Fault} (hrun : s.halted = none)
    (hf : fetch Config.reference s = .error f) : step s = .fault f := by
  simp [step, hrun, hf, raise]

theorem Machine.step_next_or_fault {s : State} (hrun : s.halted = none) :
    (∃ t, step s = .next t) ∨ (∃ f, step s = .fault f) := by
  cases hf : fetch Config.reference s with
  | error f => exact .inr ⟨f, step_of_fetch_error hrun hf⟩
  | ok w =>
    cases hd : decode w with
    | error e => exact .inr ⟨_, step_of_decode_error ⟨hrun, hf⟩ hd⟩
    | ok i =>
      rw [step_of_decode_ok ⟨hrun, hf⟩ hd]
      exact .inl (exec_next i _)

/-- Settles O24: no branch of either step answers a refusal, since every arm of `exec` completes. -/
theorem stepIsTotal : Obligations.StepIsTotal := by
  intro c s hrun
  exact ⟨stepWith_next_or_fault c s, step_next_or_fault hrun⟩

/-! ### The state after a committed step -/

/-- Every register after a committed step: the write port, else the advance of register 14, else the old value
(R123 to R125). -/
theorem Machine.reg_of_stepWith_next {c : Config} {s t : State} {w : Word} {b : BusTuple} (hf : s.Fetches c w)
    (hd : dispatch c (opcodeField w) = some b) (h : stepWith c s = .next t) (r : RegIndex) :
    t.reg r =
      if b.regWe = true ∧ r = (signals c b (.ofWord w) s).waddr then
        merge (s.reg r) (signals c b (.ofWord w) s).wdata (signals c b (.ofWord w) s).wmask
      else if r = ipIndex then s.ip + 2 else s.reg r := by
  obtain ⟨-, rfl⟩ := stepWith_next_of hf hd h
  rw [State.latch_reg, commit_reg, signals_writesReg, signals_ip]

/-- Memory after a committed step: the masked write of the memory port (R122). -/
theorem Machine.mem_of_stepWith_next {c : Config} {s t : State} {w : Word} {b : BusTuple} (hf : s.Fetches c w)
    (hd : dispatch c (opcodeField w) = some b) (h : stepWith c s = .next t) :
    t.mem = s.mem.write (signals c b (.ofWord w) s).maddr (signals c b (.ofWord w) s).mdata
      (signals c b (.ofWord w) s).mmask := by
  obtain ⟨-, rfl⟩ := stepWith_next_of hf hd h
  rw [State.latch_mem, commit_mem]

/-- Settles O28: the addressed register takes the write port's branch, whatever its index, and a register that is neither
addressed nor 14 takes the last one. -/
theorem registerCommitIsAMaskedMerge : Obligations.RegisterCommitIsAMaskedMerge := by
  rintro c s t w b g hf hd rfl h
  have hreg := reg_of_stepWith_next hf hd h
  refine ⟨signals_waddr c b _ s, fun hwe _ => ?_, fun _ r hr hip => ?_, fun hwe r hip => ?_⟩
  · rw [hreg, if_pos ⟨hwe, rfl⟩]
  · rw [hreg, if_neg (fun hw => hr hw.2), if_neg hip]
  · have hnot : ¬ b.regWe = true := by simp [hwe]
    rw [hreg, if_neg (fun hw => hnot hw.1), if_neg hip]

/-- Settles O30: memory after the step is one masked write, so the laws of the masked write say every word and every byte
of it. -/
theorem memoryAfterACommittedStep : Obligations.MemoryAfterACommittedStep := by
  rintro c s t w b g hwf hf hd rfl h
  rw [mem_of_stepWith_next hf hd h]
  refine ⟨fun hm => ?_, fun k => ?_, fun a ha => ?_⟩
  · rw [hm]
    exact Memory.write_maskNone _ _ _
  · rw [Memory.word_write _ _ _ _ hwf]
    split
    · next hk => rw [hk, Memory.read]
    · rfl
  · exact Memory.readByte_write_other _ _ _ hwf (by omega) (by omega)

/-! ### Routing (R115 to R120) -/

theorem Fields.ofWord_eq_bits (w : Word) :
    (Fields.ofWord w).r1 = w.extractLsb 7 4 ∧ (Fields.ofWord w).r2 = w.extractLsb 11 8 ∧
      (Fields.ofWord w).r3 = w.extractLsb 15 12 :=
  ⟨rfl, rfl, rfl⟩

/-- The data of a source that reads no memory does not depend on the memory word (R118). -/
theorem Machine.regWriteData_of_not_readsMemory {src : RegDataSrc} (h : readsMemory src = false) (imm8 : Byte)
    (m m' res : Word) : regWriteData imm8 m res src = regWriteData imm8 m' res src := by
  cases src with
  | immLow | immHigh | alu => rfl
  | memLowByte | memWord => cases h

theorem Machine.readsMemory_eq_false_iff (src : RegDataSrc) :
    readsMemory src = false ↔ src ≠ .memLowByte ∧ src ≠ .memWord := by
  cases src <;> decide

/-- The register write data is that of the chosen source, on the word at the data address (R118). -/
theorem Machine.signals_wdata (c : Config) (b : BusTuple) (f : Fields) (s : State) :
    (signals c b f s).wdata =
      regWriteData f.imm8 (s.mem.read (signals c b f s).maddr) (signals c b f s).alu.res b.regWdataSrc :=
  rfl

/-- Settles O26: each table is the selection's own equations, and each signal is the selection applied to the tuple; the
write data of a source that reads no memory is the same for every word. -/
theorem routingTables : Obligations.RoutingTables := by
  refine ⟨fun _ => ⟨rfl, rfl, rfl, rfl⟩, Fields.ofWord_eq_bits, fun _ _ _ => ⟨rfl, rfl, rfl, rfl⟩,
    fun _ _ => ⟨rfl, rfl, rfl, rfl⟩, fun _ => rfl, rfl, rfl, ?_⟩
  rintro c b f s g rfl
  refine ⟨rfl, rfl, rfl, rfl, rfl, rfl, rfl, rfl, rfl, fun hlow hword mword => ?_, fun _ _ => signals_wdata c b f s⟩
  have hno : readsMemory b.regWdataSrc = false := (readsMemory_eq_false_iff _).mpr ⟨hlow, hword⟩
  rw [signals_wdata]
  exact regWriteData_of_not_readsMemory hno _ _ _ _

end Sys2Proof

/-! SUPPORT. The ALU (`41_alu.md`): what its two operations answer (R141, R142) and when the zero flag is set (R143). -/

namespace Sys2Proof

open Sys2Proof.Machine

/-- ADD discards the 17th bit of the sum (R141). -/
theorem Machine.alu_add_res_toNat (a b : Word) : (alu .add a b).res.toNat = (a.toNat + b.toNat) % 65536 :=
  BitVec.toNat_add a b

theorem Machine.alu_or_res (a b : Word) : (alu .or a b).res = a ||| b := rfl

theorem Machine.alu_zero_iff (op : AluOp) (a b : Word) : (alu op a b).zero = true ↔ (alu op a b).res = 0 :=
  beq_iff_eq

/-- The corner case of R142: an OR is zero exactly when both operands are. -/
theorem Machine.alu_or_zero_iff (a b : Word) : (alu .or a b).zero = true ↔ a = 0 ∧ b = 0 := by
  rw [alu_zero_iff, alu_or_res]
  exact BitVec.or_eq_zero_iff

/-- Settles O35: the two operations' results, the zero flag of either, and the flag of OR read on its operands. -/
theorem aluResultsAndZeroFlag : Obligations.AluResultsAndZeroFlag := fun a b =>
  ⟨alu_add_res_toNat a b, alu_or_res a b, fun op => alu_zero_iff op a b, alu_or_zero_iff a b⟩

end Sys2Proof

/-! SUPPORT. The immediate loads (`42_immediate_loads.md`): what an instruction that writes one register and stores nothing
leaves behind, for any function of the register's old value, and LI and LIH as two such instructions (R150, R151). -/

namespace Sys2Proof

open Sys2Proof.Machine

/-! ### An instruction that writes one register -/

/-- `t` is `s` after a completed instruction that stores nothing and puts `f` of the old value into register `d`; the IP
advances unless `d` is 14 (R123 to R125). -/
structure Machine.RegisterWrite (d : RegIndex) (f : Word → Word) (s t : State) : Prop where
  reg : ∀ r, t.reg r = if r = d then f (s.reg r) else if r = ipIndex then s.ip + 2 else s.reg r
  mem : t.mem = s.mem
  ir : t.ir = s.ir
  halted : t.halted = s.halted

section RegisterWrite

variable {d : RegIndex} {f : Word → Word} {s t : State}

theorem Machine.RegisterWrite.reg_same (h : RegisterWrite d f s t) : t.reg d = f (s.reg d) := by
  rw [h.reg, if_pos rfl]

theorem Machine.RegisterWrite.ip_of_ne (h : RegisterWrite d f s t) (hd : d ≠ ipIndex) : t.ip = s.ip + 2 := by
  rw [State.ip, h.reg, if_neg hd.symm, if_pos rfl]

/-- A write to register 14 replaces the advance (R125). -/
theorem Machine.RegisterWrite.ip_of_eq (h : RegisterWrite d f s t) (hd : d = ipIndex) : t.ip = f s.ip := by
  rw [State.ip, h.reg, if_pos hd.symm, State.ip]

theorem Machine.RegisterWrite.onlyRegister (h : RegisterWrite d f s t) : OnlyRegister d s t := by
  refine ⟨fun r hr hip => ?_, fun a => ?_, h.mem, h.ir, h.halted⟩
  · rw [h.reg, if_neg hr, if_neg hip]
  · rw [h.mem]

end RegisterWrite

/-- A bad address in the IP, whatever put it there, stops the next step at its fetch (R56, R57). -/
theorem badIpFaultsNext (t : State) : BadIpFaultsNext t :=
  fun _ hrun hcheck => step_of_fetch_error hrun (fetch_of_fault hcheck)

/-! ### LI and LIH -/

theorem Machine.exec_li_registerWrite (d : RegIndex) (imm : Byte) (s : State) :
    ∃ t, exec (.li d imm) s = .next t ∧ RegisterWrite d (fun v => wordOf (highByte v) imm) s t := by
  obtain ⟨t, hexec, hreg, hmem, hir, hhalted⟩ := execLi_spec d imm s
  exact ⟨t, hexec, hreg, hmem, hir, hhalted⟩

theorem Machine.exec_lih_registerWrite (d : RegIndex) (imm : Byte) (s : State) :
    ∃ t, exec (.lih d imm) s = .next t ∧ RegisterWrite d (fun v => wordOf imm (lowByte v)) s t := by
  obtain ⟨t, hexec, hreg, hmem, hir, hhalted⟩ := execLih_spec d imm s
  exact ⟨t, hexec, hreg, hmem, hir, hhalted⟩

/-- Each of the two keeps the byte the other one writes, so either order gives `{hi, lo}` (R151). -/
theorem Machine.exec_li_lih_either_order (d : RegIndex) (hi lo : Byte) (s : State) :
    ∃ t u v w, exec (.li d lo) s = .next t ∧ exec (.lih d hi) t = .next u ∧ u.reg d = wordOf hi lo ∧
      exec (.lih d hi) s = .next v ∧ exec (.li d lo) v = .next w ∧ w.reg d = wordOf hi lo := by
  obtain ⟨t, ht, hst⟩ := exec_li_registerWrite d lo s
  obtain ⟨u, hu, htu⟩ := exec_lih_registerWrite d hi t
  obtain ⟨v, hv, hsv⟩ := exec_lih_registerWrite d hi s
  obtain ⟨w, hw, hvw⟩ := exec_li_registerWrite d lo v
  refine ⟨t, u, v, w, ht, hu, ?_, hv, hw, ?_⟩
  · rw [htu.reg_same, hst.reg_same, lowByte_wordOf]
  · rw [hvw.reg_same, hsv.reg_same, highByte_wordOf]

/-- Settles O1: LI is a register write that keeps the high byte of the old value. -/
theorem liWritesLowByteAndKeepsHighByte : Obligations.LiWritesLowByteAndKeepsHighByte := by
  intro d imm s
  obtain ⟨t, hexec, hw⟩ := exec_li_registerWrite d imm s
  exact ⟨fun _ => rfl, t, hexec, hw.reg_same, hw.ip_of_ne, hw.ip_of_eq, hw.onlyRegister, badIpFaultsNext t⟩

/-- Settles O2: LIH is a register write that keeps the low byte of the old value, and so commutes with LI's on the value
of the register. -/
theorem lihWritesHighByteAndKeepsLowByte : Obligations.LihWritesHighByteAndKeepsLowByte := by
  intro d imm s
  obtain ⟨t, hexec, hw⟩ := exec_lih_registerWrite d imm s
  exact ⟨fun _ => rfl,
    ⟨t, hexec, hw.reg_same, hw.ip_of_ne, hw.ip_of_eq, hw.onlyRegister, badIpFaultsNext t⟩,
    fun lo => exec_li_lih_either_order d imm lo s⟩

end Sys2Proof

/-! SUPPORT. The register ALU instruction (`43_register_alu.md`): OR as a register write, and what a register write leaves
when the value it writes is the old one (R160). -/

namespace Sys2Proof

open Sys2Proof.Machine

/-! ### A register write that keeps its register's value -/

section KeptValue

variable {d : RegIndex} {f : Word → Word} {s t : State}

theorem Machine.RegisterWrite.reg_of_kept (h : RegisterWrite d f s t) (hkept : f (s.reg d) = s.reg d) {r : RegIndex}
    (hip : r ≠ ipIndex) : t.reg r = s.reg r := by
  by_cases hr : r = d
  · rw [hr, h.reg_same, hkept]
  · rw [h.reg, if_neg hr, if_neg hip]

theorem Machine.RegisterWrite.onlyIp_of_kept (h : RegisterWrite d f s t) (hkept : f (s.reg d) = s.reg d) :
    OnlyRegister ipIndex s t :=
  ⟨fun _ _ hip => h.reg_of_kept hkept hip, fun a => by rw [h.mem], h.mem, h.ir, h.halted⟩

/-- A write of the IP's own value to the IP also suppresses the advance, so nothing is left to change (R125, R160). -/
theorem Machine.RegisterWrite.eq_of_ip_kept (h : RegisterWrite ipIndex f s t) (hkept : f s.ip = s.ip) : t = s := by
  refine State.eq_of_reg (fun r => ?_) h.mem h.ir h.halted
  by_cases hip : r = ipIndex
  · rw [hip, h.reg_same]
    exact hkept
  · exact h.reg_of_kept hkept hip

end KeptValue

/-! ### OR -/

/-- The value OR writes is a constant of the start-of-step state: it does not see the destination's old value except
through its sources (R127, R160). -/
theorem Machine.exec_or_registerWrite (d a b : RegIndex) (s : State) :
    ∃ t, exec (.or d a b) s = .next t ∧ RegisterWrite d (fun _ => s.reg a ||| s.reg b) s t := by
  obtain ⟨t, hexec, hreg, hmem, hir, hhalted⟩ := execOr_spec d a b s
  exact ⟨t, hexec, hreg, hmem, hir, hhalted⟩

/-- The one-instruction infinite loop of R160. -/
theorem Machine.exec_or_ip_ip_ip (s : State) : exec (.or ipIndex ipIndex ipIndex) s = .next s := by
  obtain ⟨t, hexec, hw⟩ := exec_or_registerWrite ipIndex ipIndex ipIndex s
  rw [hexec, hw.eq_of_ip_kept BitVec.or_self]

/-- The no-op of R160. -/
theorem Machine.exec_or_same_onlyIp {d : RegIndex} (hd : d ≠ ipIndex) (s : State) :
    ∃ t, exec (.or d d d) s = .next t ∧ t.ip = s.ip + 2 ∧ OnlyRegister ipIndex s t := by
  obtain ⟨t, hexec, hw⟩ := exec_or_registerWrite d d d s
  exact ⟨t, hexec, hw.ip_of_ne hd, hw.onlyIp_of_kept BitVec.or_self⟩

/-- Settles O3: OR is a register write of the sources' union, and with all three operands equal that union is the value
the register already holds. -/
theorem orWritesUnionOfStartValues : Obligations.OrWritesUnionOfStartValues := by
  intro d a b s
  obtain ⟨t, hexec, hw⟩ := exec_or_registerWrite d a b s
  exact ⟨fun _ => rfl,
    ⟨t, hexec, hw.reg_same, hw.ip_of_ne, hw.ip_of_eq, hw.onlyRegister, badIpFaultsNext t⟩,
    exec_or_ip_ip_ip s, fun hd => exec_or_same_onlyIp hd s⟩

end Sys2Proof

/-! SUPPORT. The faults (`60_exceptions.md`): an opcode without a dispatch entry (R201), an access past the end of memory in
either phase (R202), and what a fault leaves behind (R206). -/

namespace Sys2Proof

open Sys2Proof.Machine

/-! ### UnknownOpcode (R201) -/

/-- Settles O19: the dispatch table has no entry for the opcode, so the step stops there; in the reference core the words
without an entry are the unassigned ones. -/
theorem unknownOpcodeFaultNamesOpcodeAndIp : Obligations.UnknownOpcodeFaultNamesOpcodeAndIp := by
  refine ⟨fun c s w hf hd => ⟨stepWith_of_no_dispatch hf hd, rfl⟩, fun s w hf hop => ?_⟩
  obtain ⟨-, -, hstep⟩ := unassignedOpcodesAreIllegal w
  exact hstep hop s hf

/-! ### OutOfBoundsAddress (R202) -/

/-- The bounds check, read on the byte address (R55, R57). -/
theorem Machine.outOfRange_iff_le_toNat (c : Config) (a : Word) :
    outOfRange c a = true ↔ c.memWords ≤ a.toNat / 2 := by
  rw [outOfRange, decide_eq_true_iff, wordIndex_eq]

/-- An aligned address past the end of memory fails the check with its own record, in either phase (R209). -/
theorem Machine.checkAddr_of_le_toNat {c : Config} {a : Word} {ph : Phase} {ip : Word} (ha : misaligned c a = false)
    (hle : c.memWords ≤ a.toNat / 2) : checkAddr c a ph ip = some (.outOfBoundsAddress a ph ip) :=
  checkAddr_outOfRange ha ((outOfRange_iff_le_toNat c a).mpr hle)

/-- A step whose used data address fails the check stops with the check's record (R121); the latch, which took the word
before, has no part in it. -/
theorem Machine.stepWith_of_data_fault {c : Config} {s : State} {w : Word} {b : BusTuple} {f : Fault}
    (hf : s.Fetches c w) (hd : dispatch c (opcodeField w) = some b)
    (hused : (signals c b (.ofWord w) s).usesData = true)
    (hcheck : checkAddr c (signals c b (.ofWord w) s).maddr .data s.ip = some f) : stepWith c s = .fault f := by
  rw [stepWith_of_dispatch hf hd]
  apply runBus_of_used_fault
  · rwa [signals_latch]
  · rwa [signals_latch]

/-- Byte address 0x07FE names the last of the reference core's 1024 words. -/
theorem Machine.fetches_last_word {s : State} (hrun : s.halted = none) (hip : s.ip = 0x07FE) :
    s.Fetches Config.reference (s.mem.word 1023) := by
  have haligned : misaligned Config.reference s.ip = false := by rw [hip]; decide
  have hinside : outOfRange Config.reference s.ip = false := by rw [hip]; decide
  have hindex : wordIndex s.ip = 1023 := by rw [hip]; decide
  have hf := State.fetches_of_check hrun haligned hinside
  rwa [Memory.read, hindex] at hf

/-- Byte address 0x0800 is the first one past them. -/
theorem Machine.step_past_last_word {s : State} (hrun : s.halted = none) (hip : s.ip = 0x0800) :
    step s = .fault (.outOfBoundsAddress 0x0800 .fetch 0x0800) := by
  refine badIpFaultsNext s _ hrun ?_
  rw [hip]
  exact checkAddr_of_le_toNat (by decide) (by decide)

/-- Settles O20: the two phases share one address check, whose record names the address, the phase and the IP. -/
theorem outOfBoundsFaultOnUsedAccess : Obligations.OutOfBoundsFaultOnUsedAccess := by
  refine ⟨fun c s hrun ha hle => ⟨?_, rfl⟩, ?_, fun s hrun => ⟨fetches_last_word hrun, step_past_last_word hrun⟩⟩
  · exact stepWith_of_fetch_fault hrun (checkAddr_of_le_toNat ha hle)
  · rintro c s w b g hf hd rfl hused ha hle
    exact stepWith_of_data_fault hf hd hused (checkAddr_of_le_toNat ha hle)

/-! ### Fault entry (R206) -/

/-- A host step that reports a fault, inverted: the step raised it, and the state after it is the halted start state. -/
theorem Machine.hostStep_eq_fault {c : Config} {s t : State} {f : Fault} (h : hostStep c s = (t, some f)) :
    stepWith c s = .fault f ∧ t = s.halt f := by
  rcases hostStep_cases c s with ⟨u, -, hhost⟩ | ⟨g, hstep, hhost⟩
  · rw [hhost] at h
    cases h
  · rw [hhost] at h
    cases h
    exact ⟨hstep, rfl⟩

/-- Settles O37: the state after the fault is `halt` of the state before it, which changes the fault status alone. -/
theorem faultCommitsNothingAndIsPrecise : Obligations.FaultCommitsNothingAndIsPrecise := by
  intro c s t f hrun h
  obtain ⟨hstep, rfl⟩ := hostStep_eq_fault h
  exact ⟨State.halt_x s f, State.halt_ip s f, State.halt_mem s f, State.halt_ir s f, State.halt_halted s f,
    stepWith_fault_recordIp hrun hstep⟩

end Sys2Proof

/-! SUPPORT. The image load and the reset (`70_reset_and_hazards.md`): which images the load accepts (R204, R236), and what the
host reads from a core that has just been reset (R36, R230). -/

namespace Sys2Proof

open Sys2Proof.Machine

/-! ### Reset, as the host reads it (R230, R239) -/

@[simp] theorem Machine.Session.reset_image (h : Session) : h.reset.image = h.image := rfl

@[simp] theorem Machine.Session.reset_reset (h : Session) : h.reset.reset = h.reset := rfl

theorem Machine.Session.reset_readReg (h : Session) (r : RegIndex) : h.reset.readReg r = 0 :=
  resetTo_reg h.image r

theorem Machine.Session.reset_readHalted (h : Session) : h.reset.readHalted = none :=
  resetTo_halted h.image

/-- Every cell of the array after a reset: the image's word, or zero past its end (R36). -/
theorem Machine.Session.reset_readMem {c : Config} (h : Session) {k : Nat} (hk : k < c.memWords) :
    h.reset.readMem c k = some ((h.image[k]?).getD 0) := by
  rw [Session.readMem, if_pos hk, Session.reset, resetTo_word]

theorem Machine.Session.reset_readMem_of_lt {c : Config} {h : Session} (hfits : h.image.length ≤ c.memWords) {k : Nat}
    (hk : k < h.image.length) : h.reset.readMem c k = some h.image[k] := by
  rw [Session.reset_readMem h (Nat.lt_of_lt_of_le hk hfits), List.getElem?_eq_getElem hk, Option.getD_some]

theorem Machine.Session.reset_readMem_of_le {c : Config} {h : Session} {k : Nat} (hle : h.image.length ≤ k)
    (hk : k < c.memWords) : h.reset.readMem c k = some 0 := by
  rw [Session.reset_readMem h hk, List.getElem?_eq_none hle, Option.getD_none]

/-! ### The image load (R204, R236) -/

theorem Machine.loadImage_of_lt {c : Config} {image : List Word} (hlong : c.memWords < image.length) :
    loadImage c image = .error (.imageTooLarge image.length) :=
  if_pos hlong

theorem Machine.loadImage_of_le {c : Config} {image : List Word} (hfits : image.length ≤ c.memWords) :
    loadImage c image = .ok (resetTo image) :=
  if_neg (Nat.not_lt.mpr hfits)

/-- A rejected load leaves the session, its old image included, as it was. -/
theorem Machine.Session.load_of_lt {c : Config} {image : List Word} (h : Session) (hlong : c.memWords < image.length) :
    h.load c image = (h, some (.imageTooLarge image.length)) := by
  rw [Session.load, loadImage_of_lt hlong]

/-- An accepted load is a reset with the new image. -/
theorem Machine.Session.load_of_le {c : Config} {image : List Word} (h : Session) (hfits : image.length ≤ c.memWords) :
    h.load c image = (Session.reset { h with image := image }, none) := by
  rw [Session.load, loadImage_of_le hfits, Session.reset]

/-- Settles O44: the load compares the image's length with MEM_WORDS; accepted, it is a reset with the new image, so what the
host reads after it is what it reads after a reset, and another reset changes nothing. -/
theorem imageLoadPlacesWordsThenResets : Obligations.ImageLoadPlacesWordsThenResets := by
  intro c image h
  refine ⟨fun hlong => ⟨h.load_of_lt hlong, rfl⟩, fun hfits => ?_⟩
  exact ⟨_, h.load_of_le hfits, Session.reset_image _, fun _ hk => Session.reset_readMem_of_lt hfits hk,
    fun _ hle hk => Session.reset_readMem_of_le hle hk, Session.reset_readReg _, Session.reset_readHalted _,
    Session.reset_reset _⟩

end Sys2Proof

/-! SUPPORT. Decoding and encoding (`30_encoding.md`): the words the decoder accepts, the fields put back together,
and the dispatch table of a configuration the spec allows (R80 to R93). -/

namespace Sys2Proof

open Sys2Proof.Machine

/-! ### What the decoder answers -/

/-- The decoder accepts a word by its opcode nibble alone, and the instruction takes the fields of its form (R81,
R84). -/
theorem decodeWith_ok_cases {c : Config} {w : Word} {i : Instr} (h : decodeWith c w = .ok i) :
    (opcodeField w = c.opcLi ∧ i = .li (Fields.ofWord w).r1 (Fields.ofWord w).imm8) ∨
    (opcodeField w ≠ c.opcLi ∧ opcodeField w = c.opcLih ∧ i = .lih (Fields.ofWord w).r1 (Fields.ofWord w).imm8) ∨
    (opcodeField w ≠ c.opcLi ∧ opcodeField w ≠ c.opcLih ∧ opcodeField w = c.opcOr ∧
      i = .or (Fields.ofWord w).r1 (Fields.ofWord w).r2 (Fields.ofWord w).r3) := by
  simp only [decodeWith] at h
  split_ifs at h with hli hlih hor
  · cases h; exact .inl ⟨hli, rfl⟩
  · cases h; exact .inr (.inl ⟨hli, hlih, rfl⟩)
  · cases h; exact .inr (.inr ⟨hli, hlih, hor, rfl⟩)

theorem decodeWith_of_opcLi {c : Config} {w : Word} (h : opcodeField w = c.opcLi) :
    decodeWith c w = .ok (.li (Fields.ofWord w).r1 (Fields.ofWord w).imm8) :=
  if_pos h

theorem decodeWith_of_opcLih {c : Config} {w : Word} (hdist : c.opcLi ≠ c.opcLih) (h : opcodeField w = c.opcLih) :
    decodeWith c w = .ok (.lih (Fields.ofWord w).r1 (Fields.ofWord w).imm8) := by
  simp [decodeWith, h, hdist.symm]

theorem decodeWith_of_opcOr {c : Config} {w : Word} (hli : c.opcLi ≠ c.opcOr) (hlih : c.opcLih ≠ c.opcOr)
    (h : opcodeField w = c.opcOr) :
    decodeWith c w = .ok (.or (Fields.ofWord w).r1 (Fields.ofWord w).r2 (Fields.ofWord w).r3) := by
  simp [decodeWith, h, hli.symm, hlih.symm]

/-! ### The configurations the spec allows -/

theorem Config.wf_iff (c : Config) :
    c.wf = true ↔ c.capacityOk = true ∧ c.opcodesDistinct = true ∧ c.extraUnassigned = true ∧ c.extraIsMap = true := by
  simp [Config.wf, and_assoc]

theorem Config.opcodesDistinct_iff (c : Config) :
    c.opcodesDistinct = true ↔ c.opcLi ≠ c.opcLih ∧ c.opcLi ≠ c.opcOr ∧ c.opcLih ≠ c.opcOr := by
  simp [Config.opcodesDistinct, and_assoc]

theorem Config.opcodes_ne_of_wf {c : Config} (h : c.wf = true) :
    c.opcLi ≠ c.opcLih ∧ c.opcLi ≠ c.opcOr ∧ c.opcLih ≠ c.opcOr := by
  obtain ⟨-, hdist, -, -⟩ := c.wf_iff.mp h
  exact c.opcodesDistinct_iff.mp hdist

theorem Config.extra_ne_of_wf {c : Config} (h : c.wf = true) {op : Opcode} {b : BusTuple}
    (hmem : (op, b) ∈ c.extraDispatch) : op ≠ c.opcLi ∧ op ≠ c.opcLih ∧ op ≠ c.opcOr := by
  obtain ⟨-, -, hun, -⟩ := c.wf_iff.mp h
  simpa [and_assoc] using List.all_eq_true.mp hun (op, b) hmem

theorem Config.extra_nodup_of_wf {c : Config} (h : c.wf = true) : (c.extraDispatch.map Prod.fst).Nodup := by
  obtain ⟨-, -, -, hmap⟩ := c.wf_iff.mp h
  exact of_decide_eq_true hmap

/-! ### The round trip (R80, R89, R93) -/

/-- Settles O8: the opcode nibble selects the instruction's own branch, since a well-formed assignment has three
distinct opcodes, and the fields of the word are the operands it was built from. -/
theorem decodeOfEncodeIsTheInstruction : Obligations.DecodeOfEncodeIsTheInstruction := by
  intro c hc i _
  obtain ⟨hlilih, hlior, hlihor⟩ := Config.opcodes_ne_of_wf hc
  cases i with
  | li d imm =>
    rw [decodeWith_of_opcLi (Laws.OpcodeNibble.li d imm c), encodeWith, Fields.ofWord_immWord, Fields.imm8_ofImm]
    rfl
  | lih d imm =>
    rw [decodeWith_of_opcLih hlilih (Laws.OpcodeNibble.lih d imm c), encodeWith, Fields.ofWord_immWord,
      Fields.imm8_ofImm]
    rfl
  | or d a b =>
    rw [decodeWith_of_opcOr hlior hlihor (Laws.OpcodeNibble.or d a b c), encodeWith, Fields.ofWord_regWord]
    rfl

/-- The four nibbles of a word, put back together, are the word (R81). -/
theorem regWord_ofWord (w : Word) :
    (Fields.ofWord w).r3 ++ (Fields.ofWord w).r2 ++ (Fields.ofWord w).r1 ++ opcodeField w = w := by
  simp only [Fields.ofWord, opcodeField]
  rw [BitVec.extractLsb'_append_extractLsb'_eq_extractLsb' (show 12 = 8 + 4 from rfl),
    BitVec.extractLsb'_append_extractLsb'_eq_extractLsb' (show 8 = 4 + 4 from rfl),
    BitVec.extractLsb'_append_extractLsb'_eq_extractLsb' (show 4 = 0 + 4 from rfl)]
  exact BitVec.extractLsb'_eq_self

/-- The immediate aliases R2 and R3, so an RI word is put back together by the same four nibbles (R81). -/
theorem immWord_ofWord (w : Word) : (Fields.ofWord w).imm8 ++ (Fields.ofWord w).r1 ++ opcodeField w = w :=
  regWord_ofWord w

/-- Settles O9: in each accepting branch the instruction holds every field of the word, and its opcode is the word's.
-/
theorem encodeOfDecodedIsTheWord : Obligations.EncodeOfDecodedIsTheWord := by
  intro c w i h
  rcases decodeWith_ok_cases h with ⟨hop, rfl⟩ | ⟨-, hop, rfl⟩ | ⟨-, -, hop, rfl⟩
  · rw [encodeWith, ← hop]
    exact immWord_ofWord w
  · rw [encodeWith, ← hop]
    exact immWord_ofWord w
  · rw [encodeWith, ← hop]
    exact regWord_ofWord w

/-! ### The encoding formulas (R93) -/

theorem toNat_immWord (imm : Byte) (d : RegIndex) (op : Opcode) :
    BitVec.toNat (w := 16) (imm ++ d ++ op) = imm.toNat <<< 8 ||| d.toNat <<< 4 ||| op.toNat := by
  refine (BitVec.toNat_append (imm ++ d) op).trans ?_
  rw [BitVec.toNat_append, Nat.shiftLeft_or_distrib, ← Nat.shiftLeft_add]

theorem toNat_regWord (b a d : RegIndex) (op : Opcode) :
    BitVec.toNat (w := 16) (b ++ a ++ d ++ op) = b.toNat <<< 12 ||| a.toNat <<< 8 ||| d.toNat <<< 4 ||| op.toNat := by
  refine (BitVec.toNat_append (b ++ a ++ d) op).trans ?_
  simp only [BitVec.toNat_append, Nat.shiftLeft_or_distrib, ← Nat.shiftLeft_add]

/-- Settles O11: each word is a concatenation of its fields, whose value is the formula; the four examples are
evaluated. -/
theorem encodingFormulas : Obligations.EncodingFormulas := by
  refine ⟨fun d imm => ⟨?_, ?_⟩, fun d a b => ?_, rfl, rfl, rfl, rfl⟩
  · exact toNat_immWord imm d Config.reference.opcLi
  · exact toNat_immWord imm d Config.reference.opcLih
  · exact toNat_regWord b a d Config.reference.opcOr

/-- Settles O12: nine fixed words, decoded by evaluation. -/
theorem specWordsDecode : Obligations.SpecWordsDecode :=
  ⟨rfl, rfl, rfl, rfl, rfl, rfl, rfl, rfl, rfl⟩

/-! ### The dispatch table (R85) -/

theorem dispatch_of_ne {c : Config} {op : Opcode} (h : op ≠ c.opcLi ∧ op ≠ c.opcLih ∧ op ≠ c.opcOr) :
    dispatch c op = c.extraDispatch.lookup op := by
  obtain ⟨hli, hlih, hor⟩ := h
  simp [dispatch, hli, hlih, hor]

/-- A map that binds no key twice looks up each of its entries. -/
theorem lookup_eq_some_of_mem_of_nodup {l : List (Opcode × BusTuple)} (hl : (l.map Prod.fst).Nodup) {op : Opcode}
    {b : BusTuple} (hmem : (op, b) ∈ l) : l.lookup op = some b := by
  obtain ⟨l₁, l₂, rfl⟩ := List.append_of_mem hmem
  refine List.lookup_eq_some_iff.mpr ⟨l₁, l₂, rfl, fun p hp => bne_iff_ne.mpr fun he => ?_⟩
  rw [List.map_append, List.nodup_append] at hl
  obtain ⟨-, -, hdisj⟩ := hl
  exact hdisj p.1 (List.mem_map_of_mem hp) op (by simp) he.symm

/-- Settles O13: the evidenced opcodes are tested first and are distinct, so each finds its own tuple; an opcode that
is none of them is looked up in EXTRA_DISPATCH, which binds each of its keys once. -/
theorem dispatchTableIsTotalMap : Obligations.DispatchTableIsTotalMap := by
  intro c hc
  obtain ⟨hlilih, hlior, hlihor⟩ := Config.opcodes_ne_of_wf hc
  refine ⟨if_pos rfl, ?_, ?_, ⟨hlilih, hlior, hlihor⟩, fun op b hmem => ?_, fun op hli hlih hor hnone => ?_⟩
  · simp [dispatch, hlilih.symm]
  · simp [dispatch, hlior.symm, hlihor.symm]
  · have hne := Config.extra_ne_of_wf hc hmem
    rw [dispatch_of_ne hne]
    exact ⟨hne, lookup_eq_some_of_mem_of_nodup (Config.extra_nodup_of_wf hc) hmem⟩
  · refine (dispatch_eq_none_iff c op).mpr ⟨⟨hli, hlih, hor⟩, List.lookup_eq_none_iff.mpr fun p hp => ?_⟩
    refine bne_iff_ne.mpr fun he => hnone p.2 ?_
    rwa [he]

end Sys2Proof

/-! SUPPORT. The step of the reference core as the common step with the default parameters (`40_sequencer.md` R111),
and which words it completes on. -/

namespace Sys2Proof

open Sys2Proof.Machine

/-! ### Decoding to an instruction and dispatching to a tuple agree (R85, R86) -/

/-- The decoder and the dispatch table make the same choice: the meaning of the decoded instruction is the run of the
dispatched tuple on the word's own fields. -/
theorem Machine.dispatch_of_decode_ok {w : Word} {i : Instr} (h : decode w = .ok i) :
    ∃ b, dispatch Config.reference (opcodeField w) = some b ∧
      ∀ s, exec i s = runBus Config.reference b (.ofWord w) s := by
  obtain ⟨hli, hlih, hor, -⟩ := dispatchTableIsTotalMap Config.reference (by decide)
  rcases decodeWith_ok_cases h with ⟨hop, rfl⟩ | ⟨-, hop, rfl⟩ | ⟨-, -, hop, rfl⟩
  · refine ⟨.li, by rw [hop, hli], fun s => ?_⟩
    rw [exec, execLi, Fields.ofImm_imm8]
  · refine ⟨.lih, by rw [hop, hlih], fun s => ?_⟩
    rw [exec, execLih, Fields.ofImm_imm8]
  · exact ⟨.or, by rw [hop, hor], fun _ => rfl⟩

/-- The decoder accepts every word that the reference dispatch table has a tuple for (R87). -/
theorem Machine.decode_ok_of_dispatch {w : Word} {b : BusTuple}
    (h : dispatch Config.reference (opcodeField w) = some b) : ∃ i, decode w = .ok i := by
  cases hd : decode w with
  | ok i => exact ⟨i, rfl⟩
  | error e =>
    cases e with
    | unknownOpcode op =>
      have hop : op = opcodeField w := by
        simp only [decode, decodeWith] at hd
        split_ifs at hd
        cases hd
        rfl
      rw [hop, decode_eq_error_iff_unassigned, ← dispatch_reference_eq_none_iff_unassigned, h] at hd
      cases hd

/-- A halted core's step answers its fault again (R207). -/
theorem Machine.step_of_halted {s : State} {f : Fault} (h : s.halted = some f) : step s = .fault f := by
  simp [step, h, raise]

/-- Settles O17: in each of the four ways the common step can end, the decode-and-execute step ends the same way. -/
theorem stepIsTheSequencerStep : Obligations.StepIsTheSequencerStep := by
  intro s
  rcases stepWith_cases Config.reference s with ⟨f, hh, e⟩ | ⟨f, hh, hc, e⟩ | ⟨hf, hd, e⟩ | ⟨b, hf, hd, e⟩
  · rw [e, step_of_halted hh]
  · rw [e, step_of_fetch_error hh (fetch_of_fault hc)]
  · rw [dispatch_reference_eq_none_iff_unassigned, ← decode_eq_error_iff_unassigned] at hd
    rw [e, step_of_decode_error hf hd]
    rfl
  · obtain ⟨i, hi⟩ := decode_ok_of_dispatch hd
    obtain ⟨b', hd', hexec⟩ := dispatch_of_decode_ok hi
    obtain rfl : b = b' := Option.some.inj (hd.symm.trans hd')
    rw [e, step_of_decode_ok hf hi, hexec]

/-- Settles O15: the step of a core that fetches a decodable word is the instruction's meaning with the word latched.
-/
theorem stepRunsTheDecodedInstruction : Obligations.StepRunsTheDecodedInstruction :=
  fun _ _ _ hf hd => step_of_decode_ok hf hd

/-! ### When a step completes -/

theorem Machine.State.fetches_iff (c : Config) (s : State) (w : Word) :
    s.Fetches c w ↔ s.halted = none ∧ checkAddr c s.ip .fetch s.ip = none ∧ s.mem.read s.ip = w := by
  rw [State.Fetches, fetch_ok_iff]

/-- The reference core's tuples use no data phase, so it completes on every word it has a tuple for. -/
theorem Machine.safeStep_of_dispatch {s : State} {w : Word} {b : BusTuple} (hf : s.Fetches Config.reference w)
    (hd : dispatch Config.reference (opcodeField w) = some b) : SafeStep s := by
  obtain ⟨i, hi⟩ := decode_ok_of_dispatch hd
  rw [SafeStep, step_of_decode_ok hf hi]
  exact exec_next i _

theorem Machine.safeStep_iff_dispatch (s : State) :
    SafeStep s ↔ s.Fetches Config.reference (s.mem.read s.ip) ∧
      ∃ b, dispatch Config.reference (opcodeField (s.mem.read s.ip)) = some b := by
  constructor
  · rintro ⟨t, h⟩
    rw [stepIsTheSequencerStep] at h
    obtain ⟨w, b, hf, hd, -, -⟩ := stepWith_next h
    rw [hf.read]
    exact ⟨hf, b, hd⟩
  · rintro ⟨hf, b, hd⟩
    exact safeStep_of_dispatch hf hd

/-- The addresses the reference core fetches from: even, and below the end of its 1024 words (R56, R57). -/
theorem Machine.checkAddr_reference_none_iff (a : Word) (ph : Phase) (ip : Word) :
    checkAddr Config.reference a ph ip = none ↔ a.toNat % 2 = 0 ∧ a.toNat < 0x0800 := by
  have haligned : misaligned Config.reference a = false ↔ a.toNat % 2 = 0 := by
    simp [misaligned, Config.reference, BitVec.getLsbD, Nat.testBit_zero]
  have hinside : outOfRange Config.reference a = false ↔ a.toNat < 0x0800 := by
    rw [outOfRange_false_iff, wordIndex_eq, show Config.reference.memWords = 1024 from rfl]
    omega
  rw [checkAddr_none_iff, haligned, hinside]

theorem dispatch_reference_some_iff (op : Opcode) :
    (∃ b, dispatch Config.reference op = some b) ↔ op = 0x1 ∨ op = 0x2 ∨ op = 0x3 := by
  rw [← Option.ne_none_iff_exists', Ne, dispatch_reference_eq_none_iff_unassigned]
  revert op
  decide

/-- Settles O23: a step completes when it fetches and the word has a tuple; both are read on the default parameters.
-/
theorem stepCompletesExactlyOnLegalWords : Obligations.StepCompletesExactlyOnLegalWords := by
  intro s
  rw [safeStep_iff_dispatch, dispatch_reference_some_iff, State.fetches_iff, checkAddr_reference_none_iff]
  simp only [and_true, and_assoc]

/-! ### Placing a word where the next step fetches (assumption log entry 4) -/

@[simp] theorem Machine.State.fetchable_halted (c : Config) (s : State) : (s.fetchable c).halted = none := by
  unfold State.fetchable
  split <;> rfl

@[simp] theorem Machine.State.fetchable_mem (c : Config) (s : State) : (s.fetchable c).mem = s.mem := by
  unfold State.fetchable
  split <;> rfl

/-- Address 0 passes the check of every core that has a word of memory. -/
theorem Machine.checkAddr_zero {c : Config} (h : 0 < c.memWords) (ph : Phase) (ip : Word) :
    checkAddr c 0 ph ip = none :=
  (checkAddr_none_iff c 0 ph ip).mpr ⟨by simp [misaligned], (outOfRange_false_iff c 0).mpr h⟩

theorem Machine.State.fetchable_check {c : Config} (h : 0 < c.memWords) (s : State) :
    checkAddr c (s.fetchable c).ip .fetch (s.fetchable c).ip = none := by
  unfold State.fetchable
  split
  · have hip : (State.setReg { s with halted := none } ipIndex 0).ip = 0 := State.reg_setReg_same _ _ _
    rw [hip]
    exact checkAddr_zero h _ _
  · next hs => exact hs

theorem Machine.State.placeAtIp_read {s : State} (w : Word) (h : s.mem.wf = true) :
    (s.placeAtIp w).mem.read s.ip = w := by
  rw [Memory.read, State.placeAtIp, Memory.word_setWord _ _ _ h, if_pos rfl]

theorem Machine.State.withFetchWord_fetches {s : State} (h : s.mem.wf = true) (nbits w : Nat) :
    (s.withFetchWord nbits w).Fetches Config.reference (tableWord nbits w) := by
  rw [State.fetches_iff, State.withFetchWord, State.placeAtIp_halted, State.placeAtIp_ip]
  refine ⟨s.fetchable_halted _, s.fetchable_check (by decide), State.placeAtIp_read _ ?_⟩
  rwa [State.fetchable_mem]

theorem decode_of_decodeTableWord {nbits w : Nat} {i : Instr} (h : decodeTableWord nbits w = some i) :
    decode (tableWord nbits w) = .ok i := by
  unfold decodeTableWord at h
  split at h
  · next hd => rw [hd, Option.some.inj h]
  · cases h

/-- Settles O16: the placed core fetches the table word, whatever the state was, and a step that fetches a decodable
word runs its instruction. -/
theorem placedWordIsTheNextInstruction : Obligations.PlacedWordIsTheNextInstruction :=
  fun _ nbits w _ hwf hd => step_of_decode_ok (State.withFetchWord_fetches hwf nbits w) (decode_of_decodeTableWord hd)

end Sys2Proof

/-! SUPPORT. Runs (`70_reset_and_hazards.md` R234, R235): an invariant of every run, the first fault, a halted core,
and that the latch has no part in a run. -/

namespace Sys2Proof

open Sys2Proof.Machine

/-! ### An invariant of every run -/

/-- A property that every committed step and every halt keeps holds after a run of any length. -/
theorem Machine.hostRun_invariant {c : Config} {P : State → Prop} (hnext : ∀ s t, P s → stepWith c s = .next t → P t)
    (hhalt : ∀ s f, P s → P (s.halt f)) (n : Nat) (s : State) (h : P s) : P (hostRun c n s).1 := by
  induction n generalizing s with
  | zero => exact h
  | succ n ih =>
    rcases stepWith_next_or_fault c s with ⟨t, ht⟩ | ⟨f, hf⟩
    · rw [hostRun_next n ht]
      exact ih t (hnext s t h ht)
    · rw [hostRun_fault n hf]
      exact hhalt s f h

/-- The memory invariant says nothing of the fault status. -/
@[simp] theorem Machine.State.wf_halt (c : Config) (s : State) (f : Fault) : (s.halt f).wf c = s.wf c := rfl

theorem Machine.State.wf_iff (c : Config) (s : State) :
    s.wf c = true ↔ s.mem.wf = true ∧ s.mem.within c.memWords = true := by
  rw [State.wf, Bool.and_eq_true]

/-- A data phase without a fault either stores nothing or stores inside the array (R121). -/
theorem Machine.wordIndex_lt_or_maskNone_of_dataFault {c : Config} {g : Signals} (h : dataFault c g = none) :
    wordIndex g.maddr < c.memWords ∨ g.mmask = maskNone := by
  cases hu : g.usesData with
  | false =>
    simp only [Signals.usesData, Bool.or_eq_false_iff, bne_eq_false_iff_eq] at hu
    exact .inr hu.2
  | true =>
    rw [dataFault_used hu, checkAddr_none_iff, outOfRange_false_iff] at h
    exact .inl h.2

/-- A committed step keeps the memory invariant: its store is canonical and passed the bounds check. -/
theorem Machine.wf_of_stepWith_next {c : Config} {s t : State} (hs : s.wf c = true) (h : stepWith c s = .next t) :
    t.wf c = true := by
  obtain ⟨w, b, -, -, hdata, rfl⟩ := stepWith_next h
  obtain ⟨hwf, hin⟩ := (State.wf_iff c s).mp hs
  rw [State.wf_iff, State.latch_mem, commit_mem]
  exact ⟨Memory.wf_write _ _ _ hwf, Memory.within_write _ _ _ hin (wordIndex_lt_or_maskNone_of_dataFault hdata)⟩

/-- Settles O39: the step lemma of the memory invariant, for the reference core by way of the common step, and for
runs by induction on their length. -/
theorem everyStepKeepsMemoryWellFormed : Obligations.EveryStepKeepsMemoryWellFormed := by
  refine ⟨fun s t hs h => ?_, fun c s t => wf_of_stepWith_next, fun c => ?_⟩
  · rw [stepIsTheSequencerStep] at h
    exact wf_of_stepWith_next hs h
  · exact hostRun_invariant (fun _ _ => wf_of_stepWith_next) fun s f hs => (State.wf_halt c s f).trans hs

/-- No tuple of the reference core's dispatch table stores (R62, R86). -/
theorem Machine.memMask_of_dispatch_reference {op : Opcode} {b : BusTuple}
    (h : dispatch Config.reference op = some b) : memMask b.memWe b.memHalf = maskNone := by
  rcases dispatch_reference h with rfl | rfl | rfl <;> rfl

theorem Machine.mem_of_stepWith_reference {s t : State} (h : stepWith Config.reference s = .next t) :
    t.mem = s.mem := by
  obtain ⟨w, b, hf, hd, -, -⟩ := stepWith_next h
  rw [mem_of_stepWith_next hf hd h, signals_mmask, memMask_of_dispatch_reference hd, Memory.write_maskNone]

/-- Settles O32: the masked write of every reference tuple has the mask 0b00, and a halt keeps memory too. -/
theorem referenceCoreNeverChangesMemory : Obligations.ReferenceCoreNeverChangesMemory := by
  refine ⟨fun s t h => ?_, fun n s => ?_⟩
  · rw [stepIsTheSequencerStep] at h
    exact mem_of_stepWith_reference h
  · exact hostRun_invariant (P := fun t => t.mem = s.mem) (fun _ _ hs h => (mem_of_stepWith_reference h).trans hs)
      (fun _ _ hs => hs) n s rfl

/-! ### A halted core (R207) -/

/-- The record a halted core already holds is the one a further halt would write. -/
theorem Machine.State.halt_of_halted {s : State} {f : Fault} (h : s.halted = some f) : s.halt f = s := by
  rw [State.halt, ← h]

theorem Machine.hostStep_of_halted {c : Config} {s : State} {f : Fault} (h : s.halted = some f) :
    hostStep c s = (s, some f) := by
  rw [hostStep_fault (stepWith_of_halted h), State.halt_of_halted h]

theorem Machine.stateAfter_of_halted {c : Config} {s : State} {f : Fault} (h : s.halted = some f) (n : Nat) :
    stateAfter c n s = s := by
  induction n with
  | zero => rfl
  | succ n ih => rw [stateAfter, hostStep_of_halted h, ih]

/-- Settles O38: a halted core's step answers its record, which halts the state it already is. -/
theorem haltedCoreStaysHalted : Obligations.HaltedCoreStaysHalted := by
  intro c s f h
  refine ⟨step_of_halted h, hostStep_of_halted h, fun n => ?_, stateAfter_of_halted h, fun ses _ => ?_⟩
  · rw [hostRun_fault n (stepWith_of_halted h), State.halt_of_halted h]
  · exact Session.reset_readHalted ses

/-! ### The first fault of a run (R235) -/

theorem Machine.hostRun_fst (c : Config) (n : Nat) (s : State) : (hostRun c n s).1 = stateAfter c n s := by
  induction n generalizing s with
  | zero => rfl
  | succ n ih =>
    rcases stepWith_next_or_fault c s with ⟨t, ht⟩ | ⟨f, hf⟩
    · rw [hostRun_next n ht, ih t, stateAfter, hostStep_next ht]
    · rw [hostRun_fault n hf, stateAfter, hostStep_fault hf]
      exact (stateAfter_of_halted (State.halt_halted s f) n).symm

/-- Step `k` from `s` is the first to report a fault, and reports `f`. -/
def Machine.FirstFault (c : Config) (s : State) (k : Nat) (f : Fault) : Prop :=
  (hostStep c (stateAfter c k s)).2 = some f ∧ ∀ j, j < k → (hostStep c (stateAfter c j s)).2 = none

theorem Machine.firstFault_zero_iff (c : Config) (s : State) (f : Fault) :
    FirstFault c s 0 f ↔ (hostStep c s).2 = some f := by
  simp [FirstFault, stateAfter]

theorem Machine.firstFault_succ_iff (c : Config) (s : State) (k : Nat) (f : Fault) :
    FirstFault c s (k + 1) f ↔ (hostStep c s).2 = none ∧ FirstFault c (hostStep c s).1 k f := by
  simp only [FirstFault, stateAfter, Nat.forall_lt_succ_left']
  tauto

theorem Machine.hostRun_snd_iff (c : Config) (n : Nat) (s : State) (f : Fault) :
    (hostRun c n s).2 = some f ↔ ∃ k, k < n ∧ FirstFault c s k f := by
  induction n generalizing s with
  | zero => simp [hostRun_zero]
  | succ n ih =>
    rw [Nat.exists_lt_succ_left]
    simp only [firstFault_zero_iff, firstFault_succ_iff]
    rcases stepWith_next_or_fault c s with ⟨t, ht⟩ | ⟨g, hg⟩
    · rw [hostRun_next n ht, hostStep_next ht]
      simp [ih t]
    · rw [hostRun_fault n hg, hostStep_fault hg]
      simp

/-- Settles O47: the run and the repeated steps agree up to the first fault, after which a halted core changes
nothing. -/
theorem runStopsAtTheFirstFault : Obligations.RunStopsAtTheFirstFault :=
  fun c n s => ⟨hostRun_zero c s, hostRun_fst c n s, hostRun_snd_iff c n s⟩

/-! ### The host's machine -/

/-- The machine's run and the host surface's run end alike: both complete in one state, or both stop with one fault.
-/
theorem Machine.core_run_hostRun (n : Nat) (s : State) :
    (∃ t, Host.Core.run core n s = .next t ∧ hostRun Config.reference n s = (t, none)) ∨
    (∃ f t, Host.Core.run core n s = .fault f ∧ hostRun Config.reference n s = (t, some f)) := by
  induction n generalizing s with
  | zero => exact .inl ⟨s, rfl, rfl⟩
  | succ n ih =>
    rcases stepWith_next_or_fault Config.reference s with ⟨t, ht⟩ | ⟨f, hf⟩
    · rw [hostRun_next n ht, core_run_next n ((stepIsTheSequencerStep s).trans ht)]
      exact ih t
    · rw [hostRun_fault n hf, core_run_fault n ((stepIsTheSequencerStep s).trans hf)]
      exact .inr ⟨f, _, rfl, rfl⟩

/-- Settles O48: the two runs end alike, and neither can end in both ways. -/
theorem machineRunIsHostRun : Obligations.MachineRunIsHostRun := by
  intro n s t f
  rcases core_run_hostRun n s with ⟨u, hcore, hhost⟩ | ⟨g, u, hcore, hhost⟩
  · rw [hcore, hhost]
    exact ⟨⟨by rintro ⟨⟩; rfl, by rintro ⟨⟩; rfl⟩, ⟨nofun, nofun⟩⟩
  · rw [hcore, hhost]
    exact ⟨⟨nofun, nofun⟩, ⟨by rintro ⟨⟩; rfl, by rintro ⟨⟩; rfl⟩⟩

/-! ### The latch (R31) -/

/-- A step overwrites the latch before anything could read it. -/
theorem Machine.stepWith_latch (c : Config) (s : State) (v : Word) : stepWith c (s.latch v) = stepWith c s := rfl

/-- Settles O43: after one committed step the two runs are one run; before it they differ in the latch alone. -/
theorem latchIsNotObservable : Obligations.LatchIsNotObservable := by
  intro c n s v
  cases n with
  | zero => exact ⟨rfl, rfl, rfl, rfl⟩
  | succ n =>
    rcases stepWith_next_or_fault c s with ⟨t, ht⟩ | ⟨f, hf⟩
    · rw [hostRun_next n ht, hostRun_next n ((stepWith_latch c s v).trans ht)]
      exact ⟨rfl, rfl, rfl, rfl⟩
    · rw [hostRun_fault n hf, hostRun_fault n ((stepWith_latch c s v).trans hf)]
      exact ⟨rfl, rfl, rfl, rfl⟩

end Sys2Proof

/-! SUPPORT. The instructions in sequence: two writes of one register, the jump idiom and the self-loop
(`42_immediate_loads.md`, `43_register_alu.md`, `70_reset_and_hazards.md` R238). -/

namespace Sys2Proof

open Sys2Proof.Machine

/-! ### Two writes of one register -/

section Twice

variable {d : RegIndex} {f g : Word → Word} {s t t' u u' : State}

theorem Machine.RegisterWrite.twice_reg (hst : RegisterWrite d f s t) (htu : RegisterWrite d g t u) (r : RegIndex) :
    u.reg r = if r = d then g (f (s.reg r)) else if r = ipIndex then s.ip + 2 + 2 else s.reg r := by
  by_cases hd : r = d
  · rw [if_pos hd, hd, htu.reg_same, hst.reg_same]
  · rw [if_neg hd, htu.reg, if_neg hd, hst.reg, if_neg hd]
    split
    · next hip => rw [hst.ip_of_ne (hip ▸ Ne.symm hd)]
    · rfl

/-- Writes of one register that commute on its value commute on the whole state. -/
theorem Machine.RegisterWrite.comm (hst : RegisterWrite d f s t) (htu : RegisterWrite d g t u)
    (hst' : RegisterWrite d g s t') (htu' : RegisterWrite d f t' u') (hfg : ∀ v, g (f v) = f (g v)) : u' = u := by
  refine State.eq_of_reg (fun r => ?_) ?_ ?_ ?_
  · rw [hst'.twice_reg htu', hst.twice_reg htu, hfg]
  · rw [htu'.mem, hst'.mem, htu.mem, hst.mem]
  · rw [htu'.ir, hst'.ir, htu.ir, hst.ir]
  · rw [htu'.halted, hst'.halted, htu.halted, hst.halted]

end Twice

/-- Settles O4: LI and LIH write different bytes of one register, so they commute, and together they write both. -/
theorem loadConstantInEitherOrderSameState : Obligations.LoadConstantInEitherOrderSameState := by
  intro d v s
  obtain ⟨t, ht, hst⟩ := exec_li_registerWrite d (lowByte v) s
  obtain ⟨u, hu, htu⟩ := exec_lih_registerWrite d (highByte v) t
  obtain ⟨t', ht', hst'⟩ := exec_lih_registerWrite d (highByte v) s
  obtain ⟨u', hu', htu'⟩ := exec_li_registerWrite d (lowByte v) t'
  obtain rfl : u' = u := hst.comm htu hst' htu' fun x => by rw [lowByte_wordOf, highByte_wordOf]
  refine ⟨t, t', u', ht, hu, ht', hu', ?_⟩
  rw [htu.reg_same, hst.reg_same, lowByte_wordOf, wordOf_bytes]

/-! ### OR as a jump and as a read of the IP (R161, R162) -/

/-- The word of the jump idiom, for each of the sixteen registers. -/
theorem encode_jump_toNat (r : RegIndex) :
    (encode (.or ipIndex r r)).toNat = r.toNat * 4096 + r.toNat * 256 + 0x00E3 := by
  revert r
  decide

/-- Settles O5: OR of a register with itself writes its value into the IP, and memory and status are as before, so the
next fetch is at the target. -/
theorem jumpIdiomFetchesNextAtTarget : Obligations.JumpIdiomFetchesNextAtTarget := by
  intro r s
  obtain ⟨t, hexec, hw⟩ := exec_or_registerWrite ipIndex r r s
  have hip : t.ip = s.reg r := (hw.ip_of_eq rfl).trans BitVec.or_self
  refine ⟨encode_jump_toNat r, t, hexec, hip, hw.onlyRegister, fun w hrun hcheck hread => ?_⟩
  rw [State.fetches_iff, hip, hw.halted, hw.mem]
  exact ⟨hrun, hcheck, hread⟩

theorem Word.ne_add_two (a : Word) : a ≠ a + 2 := by
  bv_omega

/-- Settles O6: the sources are read before the IP advances, and the advance changes the IP. -/
theorem orOfIpStoresOwnAddress : Obligations.OrOfIpStoresOwnAddress := by
  intro d s hd
  obtain ⟨t, hexec, hw⟩ := exec_or_registerWrite d ipIndex ipIndex s
  have hreg : t.reg d = s.ip := hw.reg_same.trans BitVec.or_self
  refine ⟨t, hexec, hreg, ?_, hw.onlyRegister⟩
  rw [hreg, hw.ip_of_ne hd]
  exact Word.ne_add_two s.ip

/-! ### The self-loop (R238) -/

theorem Machine.hostRun_of_fixed {c : Config} {s : State} (h : stepWith c s = .next s) (n : Nat) :
    hostRun c n s = (s, none) := by
  induction n with
  | zero => rfl
  | succ n ih => rw [hostRun_next n h, ih]

theorem Machine.safeRun_of_hostRun {n : Nat} {s t : State} (h : hostRun Config.reference n s = (t, none)) :
    SafeRun n s := by
  rcases core_run_hostRun n s with ⟨u, hcore, -⟩ | ⟨f, u, -, hhost⟩
  · exact ⟨u, hcore⟩
  · rw [hhost] at h
    cases h

/-- Settles O7: the first step only loads the latch, which the fetch does not read, so the state it reaches steps to
itself. -/
theorem selfLoopIsSteady : Obligations.SelfLoopIsSteady := by
  intro s w hf hd
  have hstep : step s = .next (s.latch w) := by rw [step_of_decode_ok hf hd, exec_or_ip_ip_ip]
  have hfix : step (s.latch w) = .next (s.latch w) := by
    rw [stepIsTheSequencerStep, stepWith_latch, ← stepIsTheSequencerStep, hstep]
  have hrun := hostRun_of_fixed ((stepIsTheSequencerStep _).symm.trans hfix)
  exact ⟨hstep, hfix, fun n => ⟨hrun n, safeRun_of_hostRun (hrun n)⟩⟩

end Sys2Proof

/-! SUPPORT. The image load, the reset and the block (`70_reset_and_hazards.md`): the memory invariant after each
(R36, R236), the first fetch (R231), the load port as the image load, and the fault signals (R240). -/

namespace Sys2Proof

open Sys2Proof.Machine

/-! ### The state after reset and after a load -/

/-- Settles O40: the reset state lists no byte. -/
theorem resetStateIsWellFormed : Obligations.ResetStateIsWellFormed :=
  fun _ => rfl

theorem Machine.resetTo_wf {c : Config} {image : List Word} (hfits : image.length ≤ c.memWords) :
    (resetTo image).wf c = true :=
  (State.wf_iff c _).mpr ⟨imageMem_wf 0 image [] Memory.wf_nil, imageMem_within 0 _ image [] rfl (by omega)⟩

/-- An accepted load, inverted. -/
theorem Machine.loadImage_ok {c : Config} {image : List Word} {t : State} (h : loadImage c image = .ok t) :
    image.length ≤ c.memWords ∧ t = resetTo image := by
  rcases Nat.lt_or_ge c.memWords image.length with hlong | hfits
  · rw [loadImage_of_lt hlong] at h
    cases h
  · rw [loadImage_of_le hfits] at h
    cases h
    exact ⟨hfits, rfl⟩

/-- Settles O41: the image is placed word by word into the empty memory, from cell 0 and inside the array. -/
theorem loadedImageIsWellFormed : Obligations.LoadedImageIsWellFormed := by
  intro c image t h
  obtain ⟨hfits, rfl⟩ := loadImage_ok h
  exact resetTo_wf hfits

/-- Settles O45: a reset makes a new core from the image alone, so what it leaves does not depend on the core before
it. -/
theorem resetReturnsToTheLoadedImage : Obligations.ResetReturnsToTheLoadedImage :=
  fun _ h hfits => ⟨h.reset_readReg, h.reset_readHalted, h.reset_image,
    fun _ hk => Session.reset_readMem_of_lt hfits hk, fun _ hle hk => Session.reset_readMem_of_le hle hk⟩

@[simp] theorem Machine.resetTo_ip (image : List Word) : (resetTo image).ip = 0 :=
  resetTo_reg image ipIndex

/-- The first fetch after a reset is at address 0, which a core with any memory has (R231). -/
theorem Machine.resetTo_fetches {c : Config} (h : 0 < c.memWords) (image : List Word) :
    (resetTo image).Fetches c ((image[0]?).getD 0) := by
  rw [State.fetches_iff, resetTo_ip, Memory.read]
  exact ⟨resetTo_halted image, checkAddr_zero h _ _, resetTo_word image 0⟩

/-- Settles O46: the reset state is that of the empty image, whose first word is the zero fill. -/
theorem firstFetchAfterResetIsWordZero : Obligations.FirstFetchAfterResetIsWordZero := by
  refine ⟨State.reset_reg, rfl, Memory.word_nil, fun c w ws t h => ?_, ?_⟩
  · obtain ⟨hfits, rfl⟩ := loadImage_ok h
    have hpos : 0 < c.memWords := Nat.lt_of_lt_of_le (by simp) hfits
    exact ⟨resetTo_ip _, resetTo_fetches hpos (w :: ws)⟩
  · have hf : State.reset.Fetches Config.reference 0 := resetTo_fetches (by decide) []
    exact step_of_decode_error hf rfl

/-! ### The load port (R240) -/

/-- A load edge inside a reset writes its word, whatever the address width. -/
theorem Machine.Block.edge_load {c : Config} {k : Nat} (hk : k < c.memWords) (w : Word) (s : State) :
    Block.edge c { rst := true, loadEn := true, loadAddr := BitVec.ofNat (addrBits c) k, loadData := w } ⟨s, true⟩ =
      ⟨{ s with mem := s.mem.setWord k w }, true⟩ := by
  have haddr := toNat_ofNat_addrBits c k hk
  rw [Block.edge_hold _ _ _ rfl rfl, loadPort_on _ _ _ rfl (haddr.trans_lt hk), haddr]

/-- The load edges place the image as the image load does. -/
theorem Machine.Block.edges_loadEdges {c : Config} (k : Nat) (image : List Word) (s : State)
    (hfits : k + image.length ≤ c.memWords) :
    Block.edges c (loadEdges c k image) ⟨s, true⟩ = ⟨{ s with mem := imageMem k image s.mem }, true⟩ := by
  induction image generalizing k s with
  | nil => rfl
  | cons w ws ih =>
    rw [List.length_cons] at hfits
    rw [loadEdges, Block.edges, Block.edge_load (by omega), ih _ _ (by omega), imageMem]

theorem Machine.Block.edges_loadEdges_reset {c : Config} {image : List Word} (hfits : image.length ≤ c.memWords) :
    Block.edges c (loadEdges c 0 image) ⟨State.reset, true⟩ = ⟨resetTo image, true⟩ :=
  Block.edges_loadEdges 0 image State.reset (by omega)

/-- The first edge of a reset is a further edge of one whose core is already clear. -/
theorem Machine.Block.edge_enter_eq {c : Config} {i : BlockIn c} {b : Block} (h : i.rst = true)
    (hb : b.inReset = false) : b.edge c i = Block.edge c i ⟨State.reset, true⟩ := by
  rw [Block.edge_enter c i b h hb, Block.edge_hold c i _ h rfl]

/-- Settles O49: with or without an edge that only resets, the load edges start from a clear core and place the image
in it. -/
theorem loadPortEqualsImageLoad : Obligations.LoadPortEqualsImageLoad := by
  intro c b
  refine ⟨fun i image hrst hoff hb hfits => ?_, fun j hj => ?_⟩
  · refine ⟨⟨resetTo image, true⟩, ?_, loadImage_of_le hfits, fun hne => ?_, fun a ha => ?_, resetTo_reg image, rfl⟩
    · rw [Block.edges, Block.edge_enter c i b hrst hb, loadPort_off c i _ hoff, Block.edges_loadEdges_reset hfits]
    · rw [← Block.edges_loadEdges_reset hfits]
      cases image with
      | nil => exact absurd rfl hne
      | cons w ws => rw [loadEdges, Block.edges, Block.edge_enter_eq rfl hb, Block.edges]
    · rw [Block.dbgMdata_of_lt c _ a ha, resetTo_word]
  · rw [Block.edge_run c j b hj]
    exact ⟨rfl, rfl⟩

/-- Settles O59: every cell's index fits the address ports, and each edge of a reset is the load port on a clear core
or on the core as it is. -/
theorem blockPortsReachEveryWord : Obligations.BlockPortsReachEveryWord := by
  intro c b
  refine ⟨addrBits_of_two_pow c, fun k hk => ?_, fun r => rfl, fun i hrst hb => ?_, fun i hwf hrst hb => ?_⟩
  · have haddr := toNat_ofNat_addrBits c k hk
    exact ⟨BitVec.ofNat (addrBits c) k, haddr, by rw [Block.dbgMdata_of_lt c b _ (haddr.trans_lt hk), haddr]⟩
  · rw [Block.edge_enter c i b hrst hb]
    refine ⟨rfl, fun r => ?_, loadPort_halted c i _, fun hoff k => ?_, fun hon ha k => ?_⟩
    · rw [loadPort_reg, State.reset_reg]
    · rw [loadPort_off c i _ hoff]
      exact Memory.word_nil k
    · rw [loadPort_word c i State.reset Memory.wf_nil hon ha k]
      exact congrArg _ (Memory.word_nil k)
  · rw [Block.edge_hold c i b hrst hb]
    exact ⟨rfl, fun hoff => loadPort_off c i _ hoff, fun hon ha =>
      ⟨loadPort_word c i _ hwf hon ha, loadPort_reg c i _, loadPort_halted c i _⟩⟩

/-! ### The fault signals (R240) -/

/-- The info layout, read back at its three places. -/
theorem Machine.faultInfoWord_fields (tag : BitVec 4) (a ip : Word) :
    (faultInfoWord tag a ip).extractLsb' 32 4 = tag ∧ (faultInfoWord tag a ip).extractLsb' 16 16 = a ∧
      (faultInfoWord tag a ip).extractLsb' 0 16 = ip :=
  ⟨(BitVec.extractLsb'_append_eq_of_le (by decide)).trans BitVec.extractLsb'_append_eq_left,
    (BitVec.extractLsb'_append_eq_of_le (by decide)).trans BitVec.extractLsb'_append_eq_right,
    BitVec.extractLsb'_append_eq_right⟩

/-- Settles O50: each signal shows the record the core halted with, through the layout's fields. -/
theorem faultSignalsShowTheRecord : Obligations.FaultSignalsShowTheRecord := by
  intro b op a ip ph
  refine ⟨Option.isSome_eq_false_iff.trans Option.isNone_iff_eq_none, fun h => ?_, fun h => ?_, fun h => ?_⟩
  · obtain ⟨htag, -, hip⟩ := faultInfoWord_fields op (Config.unknownOpcodeAddress op ip) ip
    simp [Block.faultCode, Block.faultInfo, h, Fault.code, htag, hip]
  · obtain ⟨-, haddr, hip⟩ := faultInfoWord_fields (Config.phaseCode ph) a ip
    simp [Block.faultCode, Block.faultInfo, h, Fault.code, haddr, hip]
  · obtain ⟨-, haddr, hip⟩ := faultInfoWord_fields (Config.phaseCode ph) a ip
    simp [Block.faultCode, Block.faultInfo, h, Fault.code, haddr, hip]

end Sys2Proof

/-! SUPPORT. The words of a step in numbers: the byte merge (`00_scope.md` R10), the sources of a register write
(R118), and the low bit of an address (R55, R56). -/

namespace Sys2Proof

open Sys2Proof.Machine

/-! ### Bytes of a word -/

theorem Machine.toNat_wordOf (h l : Byte) : (wordOf h l).toNat = h.toNat * 256 + l.toNat := by
  refine (BitVec.toNat_append h l).trans ?_
  rw [← Nat.shiftLeft_add_eq_or_of_lt l.isLt, Nat.shiftLeft_eq]

theorem Machine.toNat_lowByte (w : Word) : (lowByte w).toNat = w.toNat % 256 := by
  simp [lowByte]

theorem Machine.toNat_highByte (w : Word) : (highByte w).toNat = w.toNat / 256 := by
  have hw := w.isLt
  rw [highByte, BitVec.extractLsb'_toNat, Nat.shiftRight_eq_div_pow]
  omega

/-- Settles O36: each mask selects every byte from one of the two words. -/
theorem mergeUnderEachMask : Obligations.MergeUnderEachMask := by
  intro o n
  refine ⟨merge_maskNone o n, merge_maskBoth o n, ?_, ?_⟩
  · refine (congrArg BitVec.toNat (merge_maskLow o n)).trans ?_
    rw [toNat_wordOf, toNat_highByte, toNat_lowByte]
  · refine (congrArg BitVec.toNat (merge_maskHigh o n)).trans ?_
    rw [toNat_wordOf, toNat_highByte, toNat_lowByte]

theorem Fields.imm8_ofWord (w : Word) : (Fields.ofWord w).imm8 = w.extractLsb 15 8 :=
  BitVec.extractLsb'_append_extractLsb'_eq_extractLsb' rfl

theorem Machine.regWriteMask_memLowByte_of_lowMask {c : Config} (h : c.memLowByteMode = .lowMask) :
    regWriteMask c .memLowByte = maskLow := by
  rw [regWriteMask, h]

theorem Machine.regWriteMask_memLowByte_of_zextFull {c : Config} (h : c.memLowByteMode = .zextFull) :
    regWriteMask c .memLowByte = maskBoth := by
  rw [regWriteMask, h]

/-- Settles O27: the table's own equations, beside the immediate as the word's high byte. -/
theorem registerWriteSources : Obligations.RegisterWriteSources :=
  fun _ w _ _ => ⟨Fields.imm8_ofWord w, fun _ => ⟨rfl, rfl, rfl, rfl, rfl, rfl, rfl, rfl, rfl⟩,
    regWriteMask_memLowByte_of_lowMask, regWriteMask_memLowByte_of_zextFull⟩

/-! ### The low bit of an address -/

/-- The advance by 2 keeps the low bit, the wrap-around included. -/
theorem Word.getLsbD_zero_add_two (a : Word) : (a + 2).getLsbD 0 = a.getLsbD 0 := by
  have ha : (a + 2).toNat % 2 = a.toNat % 2 := by
    rw [BitVec.toNat_add, show (2 : Word).toNat = 2 from rfl]
    omega
  simp only [BitVec.getLsbD, Nat.testBit_zero, ha]

theorem Machine.misaligned_of_odd {c : Config} {a : Word} (hpol : c.oddAddrPolicy = .fault)
    (hodd : a.getLsbD 0 = true) : misaligned c a = true := by
  simp [misaligned, hpol, hodd]

theorem Machine.misaligned_of_ignoreBit0 {c : Config} (hpol : c.oddAddrPolicy = .ignoreBit0) (a : Word) :
    misaligned c a = false := by
  simp [misaligned, hpol]

theorem Machine.checkAddr_of_odd {c : Config} {a : Word} {ph : Phase} {ip : Word} (hpol : c.oddAddrPolicy = .fault)
    (hodd : a.getLsbD 0 = true) : checkAddr c a ph ip = some (.misalignedAddress a ph ip) :=
  checkAddr_misaligned (misaligned_of_odd hpol hodd)

theorem Machine.checkAddr_ne_misaligned {c : Config} (hpol : c.oddAddrPolicy = .ignoreBit0) (a : Word) (ph : Phase)
    (ip x : Word) (ph' : Phase) (ip' : Word) : checkAddr c a ph ip ≠ some (.misalignedAddress x ph' ip') := by
  rcases checkAddr_cases c a ph ip with ⟨ha, -⟩ | ⟨-, -, e⟩ | ⟨-, -, e⟩
  · rw [misaligned_of_ignoreBit0 hpol] at ha
    cases ha
  · rw [e]
    nofun
  · rw [e]
    nofun

end Sys2Proof

/-! SUPPORT. Which fault a step reports (`60_exceptions.md` R200 to R209) and when the data address is checked
(`40_sequencer.md` R121). -/

namespace Sys2Proof

open Sys2Proof.Machine

/-! ### The data phase (R121) -/

theorem Machine.readsMemory_eq_true_iff (src : RegDataSrc) :
    readsMemory src = true ↔ src = .memLowByte ∨ src = .memWord := by
  cases src <;> decide

/-- When a tuple uses its data phase: a register write from memory, or a store with a nonzero mask. -/
theorem Machine.signals_usesData_iff (c : Config) (b : BusTuple) (f : Fields) (s : State) :
    (signals c b f s).usesData = true ↔
      (b.regWe = true ∧ (b.regWdataSrc = .memLowByte ∨ b.regWdataSrc = .memWord)) ∨
      memMask b.memWe b.memHalf ≠ maskNone := by
  rw [Signals.usesData, signals_needsRead, signals_mmask, Bool.or_eq_true, Bool.and_eq_true, readsMemory_eq_true_iff,
    bne_iff_ne]

theorem Machine.runBus_of_unused {c : Config} {b : BusTuple} {f : Fields} {s : State}
    (h : (signals c b f s).usesData = false) : runBus c b f s = .next (commit (signals c b f s) s) :=
  runBus_of_none (dataFault_unused h)

/-- A fault of the data phase is that of the address check of a used address. -/
theorem Machine.dataFault_eq_some {c : Config} {g : Signals} {f : Fault} (h : dataFault c g = some f) :
    g.usesData = true ∧ checkAddr c g.maddr .data g.ip = some f := by
  cases hu : g.usesData with
  | false =>
    rw [dataFault_unused hu] at h
    cases h
  | true => exact ⟨rfl, (dataFault_used hu).symm.trans h⟩

/-- Settles O25: the data phase of an unused address has no fault, and that of a used one has the fault of its check.
-/
theorem onlyUsedDataAddressesAreChecked : Obligations.OnlyUsedDataAddressesAreChecked := by
  rintro c b f s g rfl
  exact ⟨signals_usesData_iff c b f s, runBus_of_unused, fun hu _ hc => runBus_of_used_fault hu hc,
    fun _ hc => runBus_of_check fun _ => hc⟩

/-! ### The order of the faults (R209) -/

/-- A step that fetches a word with a tuple and whose data address, where it is used, passes the check commits. -/
theorem Machine.stepWith_of_data_check {c : Config} {s : State} {w : Word} {b : BusTuple} (hf : s.Fetches c w)
    (hd : dispatch c (opcodeField w) = some b)
    (hcheck : (signals c b (.ofWord w) s).usesData = true →
      checkAddr c (signals c b (.ofWord w) s).maddr .data s.ip = none) :
    stepWith c s = .next (commit (signals c b (.ofWord w) s) (s.latch w)) := by
  rw [stepWith_of_dispatch hf hd]
  exact runBus_of_check hcheck

/-- Settles O18: each stage of the step stops it before the next stage is reached, and one address check serves both
phases. -/
theorem faultPriorityOrder : Obligations.FaultPriorityOrder := by
  intro c s hrun
  refine ⟨fun ha => stepWith_of_fetch_fault hrun (checkAddr_misaligned ha),
    fun ha hr => stepWith_of_fetch_fault hrun (checkAddr_outOfRange ha hr), fun ha hr => ?_⟩
  have hf := State.fetches_of_check hrun ha hr
  refine ⟨stepWith_of_no_dispatch hf, ?_⟩
  rintro b g hd rfl
  refine ⟨fun hu hm => stepWith_of_data_fault hf hd hu (checkAddr_misaligned hm),
    fun hu hm ho => stepWith_of_data_fault hf hd hu (checkAddr_outOfRange hm ho), fun hgood => ?_⟩
  exact stepWith_of_data_check hf hd fun hu => (checkAddr_none_iff c _ _ _).mpr (hgood hu)

/-! ### MisalignedAddress (R203) -/

theorem Machine.stepWith_ne_misaligned {c : Config} {s : State} (hpol : c.oddAddrPolicy = .ignoreBit0)
    (hrun : s.halted = none) (a : Word) (ph : Phase) (ip : Word) :
    stepWith c s ≠ .fault (.misalignedAddress a ph ip) := by
  intro h
  rcases stepWith_cases c s with ⟨f, hh, -⟩ | ⟨f, -, hc, e⟩ | ⟨-, -, e⟩ | ⟨b, -, -, e⟩
  · rw [hrun] at hh
    cases hh
  · rw [e] at h
    cases h
    exact checkAddr_ne_misaligned hpol _ _ _ _ _ _ hc
  · rw [e] at h
    cases h
  · rw [e, runBus_fault_iff] at h
    obtain ⟨-, hc⟩ := dataFault_eq_some h
    exact checkAddr_ne_misaligned hpol _ _ _ _ _ _ hc

/-- Settles O21: only the alignment half of the address check raises this fault, and it does under one policy alone.
-/
theorem misalignedFaultOnlyUnderFaultPolicy : Obligations.MisalignedFaultOnlyUnderFaultPolicy := by
  intro c s hrun
  refine ⟨fun hpol hodd => ⟨stepWith_of_fetch_fault hrun (checkAddr_of_odd hpol hodd), rfl⟩, ?_,
    fun a ph ip hpol => stepWith_ne_misaligned hpol hrun a ph ip⟩
  rintro w b g hpol hf hd rfl hu hodd
  exact stepWith_of_data_fault hf hd hu (checkAddr_of_odd hpol hodd)

end Sys2Proof

/-! SUPPORT. The state after a committed step (`40_sequencer.md`): the IP (R124, R125), the latch, the one other
register (R24), and what the next fetch reads (R69). -/

namespace Sys2Proof

open Sys2Proof.Machine

section CommittedStep

variable {c : Config} {s t : State} {w : Word} {b : BusTuple}

/-! ### The IP -/

theorem Machine.ip_of_stepWith_next (hf : s.Fetches c w) (hd : dispatch c (opcodeField w) = some b)
    (h : stepWith c s = .next t) :
    t.ip =
      if b.regWe = true ∧ (signals c b (.ofWord w) s).waddr = ipIndex then
        merge s.ip (signals c b (.ofWord w) s).wdata (signals c b (.ofWord w) s).wmask
      else s.ip + 2 := by
  obtain ⟨-, rfl⟩ := stepWith_next_of hf hd h
  rw [State.latch_ip, commit_ip, signals_writesReg, signals_ip]

/-- A step whose tuple writes no register 14 advances the IP (R124). -/
theorem Machine.ip_of_stepWith_next_of_not_written (hf : s.Fetches c w) (hd : dispatch c (opcodeField w) = some b)
    (hnot : ¬ (b.regWe = true ∧ regAddr (.ofWord w) b.regWaddrSrc = ipIndex)) (h : stepWith c s = .next t) :
    t.ip = s.ip + 2 := by
  rw [ip_of_stepWith_next hf hd h, signals_waddr, if_neg hnot]

/-! ### The latch and the fault status -/

theorem Machine.ir_of_stepWith_next (hf : s.Fetches c w) (hd : dispatch c (opcodeField w) = some b)
    (h : stepWith c s = .next t) : t.ir = w := by
  obtain ⟨-, rfl⟩ := stepWith_next_of hf hd h
  rfl

theorem Machine.halted_of_stepWith_next (hf : s.Fetches c w) (hd : dispatch c (opcodeField w) = some b)
    (h : stepWith c s = .next t) : t.halted = none := by
  obtain ⟨-, rfl⟩ := stepWith_next_of hf hd h
  rw [State.latch_halted, commit_halted]
  exact hf.1

end CommittedStep

/-- Settles O29: the write's mask is never 0b00, so the IP's two cases are those of the commit; the example runs LI on
the IP, whose high byte is the current instruction's. -/
theorem ipIsWrittenOrAdvancedNeverBoth : Obligations.IpIsWrittenOrAdvancedNeverBoth := by
  constructor
  · rintro c s t w b g hf hd rfl h
    have hip := ip_of_stepWith_next hf hd h
    have hmask : (signals c b (.ofWord w) s).wmask ≠ 0b00 := regWriteMask_ne_none c b.regWdataSrc
    refine ⟨fun ⟨hwe, haddr, _⟩ => ?_, fun hnot => ?_⟩
    · rw [hip, if_pos ⟨hwe, haddr⟩]
    · rw [hip, if_neg fun ⟨hwe, haddr⟩ => hnot ⟨hwe, haddr, hmask⟩]
      exact BitVec.toNat_add s.ip 2
  · intro s hf hip
    have hd : decode 0x10E1 = .ok (.li ipIndex 0x10) := rfl
    obtain ⟨t, hexec, hw⟩ := exec_li_registerWrite ipIndex 0x10 (s.latch 0x10E1)
    refine ⟨t, (step_of_decode_ok hf hd).trans hexec, ?_⟩
    rw [hw.ip_of_eq rfl, State.latch_ip, hip]
    rfl

/-- Settles O31: the write port's register is the one that may change; the step latched the word it fetched and
committed the status of a running core. -/
theorem atMostOneRegisterBesideIpChanges : Obligations.AtMostOneRegisterBesideIpChanges := by
  intro c s t h
  obtain ⟨w, b, hf, hd, -, -⟩ := stepWith_next h
  refine ⟨⟨(signals c b (.ofWord w) s).waddr, fun r hr hip => ?_⟩, ?_, halted_of_stepWith_next hf hd h⟩
  · rw [reg_of_stepWith_next hf hd h, if_neg fun hw => hr hw.2, if_neg hip]
  · rwa [ir_of_stepWith_next hf hd h]

theorem Machine.State.evenIp_iff (s : State) : s.evenIp = true ↔ s.ip.getLsbD 0 = false := by
  simp [State.evenIp]

/-- Settles O42: the IP takes the written value, even by assumption, or the advance, which keeps the low bit. -/
theorem evenIpKeptByEvenWrites : Obligations.EvenIpKeptByEvenWrites := by
  rintro c s t w b g hf hd rfl h heven hwrite
  rw [State.evenIp_iff] at heven ⊢
  rw [signals_writesReg] at hwrite
  rw [ip_of_stepWith_next hf hd h]
  split
  · next hw => exact hwrite hw.1 hw.2
  · rw [Word.getLsbD_zero_add_two, heven]

/-- Settles O22: under ignore_bit0 only the bounds are checked, on the word index that both bytes of a word share. -/
theorem ignoreBit0FetchesTheEvenWord : Obligations.IgnoreBit0FetchesTheEvenWord := by
  intro c s hpol hrun hin
  have hf : s.Fetches c (s.mem.word (s.ip.toNat / 2)) := by
    rw [← wordIndex_eq] at hin ⊢
    exact State.fetches_of_check hrun (misaligned_of_ignoreBit0 hpol _) ((outOfRange_false_iff c _).mpr hin)
  refine ⟨hf, fun b t hd hnot h => ?_⟩
  have hip := ip_of_stepWith_next_of_not_written hf hd hnot h
  exact ⟨hip, by rw [hip, Word.getLsbD_zero_add_two]⟩

/-- Settles O34: the advance wraps in the 16-bit word; a fetch near the top is in bounds only in a full memory, and no
address past 1024 words passes the reference core's check. -/
theorem ipWrapNeedsFullMemory : Obligations.IpWrapNeedsFullMemory := by
  refine ⟨fun c s t w b hip hf hd hnot h => ?_, fun c s w hc hf hle => ?_, fun s hrun hle => ?_⟩
  · rw [ip_of_stepWith_next_of_not_written hf hd hnot h, hip]
    rfl
  · obtain ⟨-, hin⟩ := (checkAddr_none_iff c _ _ _).mp hf.check
    rw [outOfRange_false_iff, wordIndex_eq] at hin
    obtain ⟨hcap, -, -, -⟩ := c.wf_iff.mp hc
    simp only [Config.capacityOk, Bool.and_eq_true, decide_eq_true_eq] at hcap
    omega
  · have hbad : checkAddr Config.reference s.ip .fetch s.ip ≠ none := by
      rw [Ne, checkAddr_reference_none_iff]
      omega
    obtain ⟨f, hf⟩ := Option.ne_none_iff_exists'.mp hbad
    exact ⟨f, hf, badIpFaultsNext s f hrun hf, checkAddr_recordIp hf⟩

/-! ### The next fetch (R69) -/

/-- Settles O33: the next fetch reads the memory the step committed, whose word at any index is the masked merge. -/
theorem nextFetchSeesTheStepsStore : Obligations.NextFetchSeesTheStepsStore := by
  intro c s t w b g hwf hf hd hg h
  obtain ⟨-, hword, -⟩ := memoryAfterACommittedStep c s t w b g hwf hf hd hg h
  refine ⟨(ir_of_stepWith_next hf hd h).trans hf.read.symm, fun hcheck => ?_⟩
  rw [fetch_of_check hcheck, Memory.read, hword]
  rfl

end Sys2Proof

/-! SUPPORT. The routes of EXTRA_DISPATCH (`44_unbound_routes.md` R171 to R178): tuples that only write a register, as
register writes; tuples that store, by the word they leave; and the tuple fields that have no effect (`30_encoding.md`
R86). -/

namespace Sys2Proof

open Sys2Proof.Machine

/-! ### Where the memory port points (R119, R120) -/

theorem Machine.signals_maddr (c : Config) (b : BusTuple) (f : Fields) (s : State) :
    (signals c b f s).maddr = memAddr s.ip (s.reg (regAddr f b.regRaddr1Src)) b.memAddrSrc := rfl

theorem Machine.signals_mdata (c : Config) (b : BusTuple) (f : Fields) (s : State) :
    (signals c b f s).mdata = memData s.ip (s.reg (regAddr f b.regRaddr2Src)) b.memDataSrc := rfl

theorem Machine.signals_alu_res (c : Config) (b : BusTuple) (f : Fields) (s : State) :
    (signals c b f s).alu.res = aluResult b.aluOp
      (aluOperand s.ip (s.reg (regAddr f b.regRaddr1Src)) (s.reg (regAddr f b.regRaddr2Src)) b.aluASrc)
      (aluOperand s.ip (s.reg (regAddr f b.regRaddr1Src)) (s.reg (regAddr f b.regRaddr2Src)) b.aluBSrc) := rfl

section Routes

variable {c : Config} {b b' : BusTuple} {f : Fields} {s : State}

theorem Machine.signals_maddr_of_r2 (hread : b.regRaddr1Src = .r2) (haddr : b.memAddrSrc = .reg1) :
    (signals c b f s).maddr = s.reg f.r2 := by
  rw [signals_maddr, hread, haddr]
  rfl

theorem Machine.signals_mdata_of_r3 (hread : b.regRaddr2Src = .r3) (hdata : b.memDataSrc = .reg2) :
    (signals c b f s).mdata = s.reg f.r3 := by
  rw [signals_mdata, hread, hdata]
  rfl

/-- A store has a nonzero mask, whole or half (R61). -/
theorem Machine.memMask_true_ne_none (half : Bool) : memMask true half ≠ maskNone := by
  cases half <;> decide

theorem Machine.signals_usesData_of_memWe (h : b.memWe = true) : (signals c b f s).usesData = true := by
  rw [signals_usesData_iff, h]
  exact .inr (memMask_true_ne_none b.memHalf)

theorem Machine.signals_usesData_of_load (hwe : b.regWe = true)
    (hsrc : b.regWdataSrc = .memLowByte ∨ b.regWdataSrc = .memWord) : (signals c b f s).usesData = true :=
  (signals_usesData_iff c b f s).mpr (.inl ⟨hwe, hsrc⟩)

/-! ### Tuples that only write a register -/

/-- A tuple that writes a register and stores nothing is a register write of the merge, once its data phase is passed.
-/
theorem Machine.runBus_registerWrite (hwe : b.regWe = true) (hme : b.memWe = false)
    (hcheck : (signals c b f s).usesData = true → checkAddr c (signals c b f s).maddr .data s.ip = none) :
    ∃ t, runBus c b f s = .next t ∧
      RegisterWrite (regAddr f b.regWaddrSrc)
        (fun v => merge v (signals c b f s).wdata (regWriteMask c b.regWdataSrc)) s t := by
  refine ⟨_, runBus_of_check hcheck, fun r => ?_, ?_, commit_ir _ s, commit_halted _ s⟩
  · simp [commit_reg, hwe]
  · rw [commit_mem, signals_mmask, hme]
    exact Memory.write_maskNone _ _ _

/-- The state after a register write is determined by the state before it. -/
theorem Machine.RegisterWrite.unique {d : RegIndex} {g : Word → Word} {t u : State} (ht : RegisterWrite d g s t)
    (hu : RegisterWrite d g s u) : t = u :=
  State.eq_of_reg (fun r => by rw [ht.reg, hu.reg]) (ht.mem.trans hu.mem.symm) (ht.ir.trans hu.ir.symm)
    (ht.halted.trans hu.halted.symm)

/-- The tuple writes the R1-addressed register from a source that reads no memory, and stores nothing. -/
structure BusTuple.WritesR1Only (b : BusTuple) : Prop where
  regWe : b.regWe = true
  regWaddrSrc : b.regWaddrSrc = .r1
  memWe : b.memWe = false
  noRead : readsMemory b.regWdataSrc = false

theorem Machine.signals_usesData_of_writesR1Only (h : b.WritesR1Only) : (signals c b f s).usesData = false := by
  rw [Signals.usesData, signals_needsRead, signals_mmask, h.noRead, h.memWe, Bool.and_false]
  rfl

/-- Two such tuples with one data source do the same where the source gives the same data: no other field has a part.
-/
theorem Machine.runBus_eq_of_writesR1Only (h : b.WritesR1Only) (h' : b'.WritesR1Only)
    (hsrc : b.regWdataSrc = b'.regWdataSrc) (hdata : (signals c b f s).wdata = (signals c b' f s).wdata) :
    runBus c b f s = runBus c b' f s := by
  have hunused : ∀ {a : BusTuple}, a.WritesR1Only → (signals c a f s).usesData = true →
      checkAddr c (signals c a f s).maddr .data s.ip = none := fun ha hu => by
    rw [signals_usesData_of_writesR1Only ha] at hu
    cases hu
  obtain ⟨t, ht, hst⟩ := runBus_registerWrite h.regWe h.memWe (hunused h)
  obtain ⟨u, hu, hsu⟩ := runBus_registerWrite h'.regWe h'.memWe (hunused h')
  rw [h.regWaddrSrc, hdata, hsrc, ← h'.regWaddrSrc] at hst
  rw [ht, hu, hst.unique hsu]

end Routes

/-- Settles O14: the three tuples write R1 from a source without a memory read, so a tuple with the same source, and
for OR the same operands, writes the same data. -/
theorem unusedTupleFieldsHaveNoEffect : Obligations.UnusedTupleFieldsHaveNoEffect := by
  refine ⟨rfl, rfl, rfl, fun c b f s hwe hwaddr hme => ?_⟩
  have hb : readsMemory b.regWdataSrc = false → b.WritesR1Only := fun hno => ⟨hwe, hwaddr, hme, hno⟩
  refine ⟨fun hsrc => ?_, fun hsrc => ?_, fun hsrc hread1 hread2 hop halu1 halu2 => ?_⟩
  · refine runBus_eq_of_writesR1Only (hb (by rw [hsrc]; rfl)) ⟨rfl, rfl, rfl, rfl⟩ hsrc ?_
    rw [signals_wdata, hsrc]
    rfl
  · refine runBus_eq_of_writesR1Only (hb (by rw [hsrc]; rfl)) ⟨rfl, rfl, rfl, rfl⟩ hsrc ?_
    rw [signals_wdata, hsrc]
    rfl
  · refine runBus_eq_of_writesR1Only (hb (by rw [hsrc]; rfl)) ⟨rfl, rfl, rfl, rfl⟩ hsrc ?_
    rw [signals_wdata, signals_alu_res, hsrc, hread1, hread2, hop, halu1, halu2]
    rfl

/-! ### Loads (R171, R172) -/

/-- The fields route-LW and route-LB share: a memory source, addressed by the R2-addressed register, into the
R1-addressed one, and no store. -/
structure BusTuple.LoadsR1AtR2 (b : BusTuple) : Prop where
  regWe : b.regWe = true
  regWaddrSrc : b.regWaddrSrc = .r1
  reads : b.regWdataSrc = .memLowByte ∨ b.regWdataSrc = .memWord
  regRaddr1Src : b.regRaddr1Src = .r2
  memWe : b.memWe = false
  memAddrSrc : b.memAddrSrc = .reg1

theorem Machine.runBus_loadsR1AtR2 {c : Config} {b : BusTuple} (h : b.LoadsR1AtR2) (f : Fields) (s : State) :
    (∀ flt, checkAddr c (s.reg f.r2) .data s.ip = some flt → runBus c b f s = .fault flt) ∧
    (checkAddr c (s.reg f.r2) .data s.ip = none → ∃ t, runBus c b f s = .next t ∧
      RegisterWrite f.r1
        (fun v => merge v (regWriteData f.imm8 (s.mem.word (wordIndex (s.reg f.r2))) (signals c b f s).alu.res
          b.regWdataSrc) (regWriteMask c b.regWdataSrc)) s t) := by
  have hmaddr : (signals c b f s).maddr = s.reg f.r2 := signals_maddr_of_r2 h.regRaddr1Src h.memAddrSrc
  have hused : (signals c b f s).usesData = true := signals_usesData_of_load h.regWe h.reads
  refine ⟨fun flt hflt => runBus_of_used_fault hused (by rwa [hmaddr]), fun hcheck => ?_⟩
  obtain ⟨t, hrun, hw⟩ := runBus_registerWrite h.regWe h.memWe fun _ => by rwa [hmaddr]
  rw [h.regWaddrSrc, signals_wdata, hmaddr] at hw
  exact ⟨t, hrun, hw⟩

/-- Settles O51: the load writes the addressed word under the full mask. -/
theorem routeLoadWord : Obligations.RouteLoadWord := by
  intro c b f s hwe hwaddr hsrc hread hme haddr
  obtain ⟨hfault, hnext⟩ := runBus_loadsR1AtR2 (c := c) ⟨hwe, hwaddr, .inr hsrc, hread, hme, haddr⟩ f s
  refine ⟨hfault, fun hcheck => ?_⟩
  obtain ⟨t, hrun, hw⟩ := hnext hcheck
  rw [hsrc] at hw
  exact ⟨t, hrun, hw.reg_same.trans (merge_maskBoth _ _), hw.ip_of_ne, hw.onlyRegister⟩

/-- Settles O52: the load writes the zero-extended low byte under the mode's mask. -/
theorem routeLoadLowByte : Obligations.RouteLoadLowByte := by
  intro c b f s hwe hwaddr hsrc hread hme haddr
  obtain ⟨hfault, hnext⟩ := runBus_loadsR1AtR2 (c := c) ⟨hwe, hwaddr, .inl hsrc, hread, hme, haddr⟩ f s
  refine ⟨hfault, fun hcheck => ?_⟩
  obtain ⟨t, hrun, hw⟩ := hnext hcheck
  rw [hsrc] at hw
  refine ⟨t, hrun, fun hmode => ?_, fun hmode => ?_, hw.ip_of_ne, hw.onlyRegister⟩
  · rw [hw.reg_same, regWriteMask_memLowByte_of_lowMask hmode, merge_maskLow, regWriteData, lowByte_setWidth]
  · rw [hw.reg_same, regWriteMask_memLowByte_of_zextFull hmode, merge_maskBoth, regWriteData]

/-! ### ADD (R177) -/

/-- Settles O57: the tuple is a register write of the ALU's sum under the full mask, and its data phase is unused. -/
theorem routeAdd : Obligations.RouteAdd := by
  intro c b f s hwe hsrc hop hme
  obtain ⟨t, hrun, hw⟩ := runBus_registerWrite (c := c) (f := f) (s := s) hwe hme fun hu => by
    rw [signals_usesData_iff, hsrc, hme] at hu
    rcases hu with ⟨-, h | h⟩ | h
    · cases h
    · cases h
    · exact absurd rfl h
  refine ⟨t, _, _, rfl, rfl, hrun, ?_, hw.ip_of_ne, hw.onlyRegister⟩
  have hreg : t.reg (regAddr f b.regWaddrSrc) = (signals c b f s).alu.res := by
    rw [hw.reg_same, signals_wdata, hsrc]
    exact merge_maskBoth _ _
  rw [hreg, signals_alu_res, hop]
  exact alu_add_res_toNat _ _

/-! ### Stores (R173 to R176, R178) -/

/-- Every word of memory after a commit from a canonical memory (R122). -/
theorem Machine.commit_word (g : Signals) {s : State} (hwf : s.mem.wf = true) (k : Nat) :
    (commit g s).mem.word k =
      if k = wordIndex g.maddr then merge (s.mem.word k) g.mdata g.mmask else s.mem.word k := by
  rw [commit_mem, Memory.word_write _ _ _ _ hwf]
  split
  · next hk => rw [hk, Memory.read]
  · rfl

theorem Machine.commit_word_same (g : Signals) {s : State} (hwf : s.mem.wf = true) :
    (commit g s).mem.word (wordIndex g.maddr) = merge (s.mem.word (wordIndex g.maddr)) g.mdata g.mmask := by
  rw [commit_word g hwf, if_pos rfl]

/-- Without a register write only the advance touches the register file (R123, R124). -/
theorem Machine.commit_reg_of_not_writesReg {g : Signals} (s : State) (hw : g.writesReg = false) (r : RegIndex) :
    (commit g s).reg r = if r = ipIndex then g.ip + 2 else s.reg r := by
  simp [commit_reg, hw]

theorem Machine.commit_ip_of_not_writesReg {g : Signals} (s : State) (hw : g.writesReg = false) :
    (commit g s).ip = g.ip + 2 :=
  commit_reg_of_not_writesReg s hw ipIndex

/-- A commit that writes no register changes the addressed word and the IP alone. -/
theorem Machine.commit_onlyWord {g : Signals} {s : State} (hwf : s.mem.wf = true) (hw : g.writesReg = false) :
    OnlyWord g.maddr s (commit g s) := by
  refine ⟨fun r hr => ?_, fun a h0 h1 => ?_, fun k hk => ?_, commit_ir g s, commit_halted g s⟩
  · rw [commit_reg_of_not_writesReg s hw, if_neg hr]
  · rw [commit_mem, Memory.readByte_write_other _ _ _ hwf h0 h1]
  · rw [commit_word g hwf, if_neg hk]

/-- The fields route-SW and route-SB share: the R3-addressed register stored at the R2-addressed one, no register
written. -/
structure BusTuple.StoresR3AtR2 (b : BusTuple) : Prop where
  regWe : b.regWe = false
  memWe : b.memWe = true
  memAddrSrc : b.memAddrSrc = .reg1
  memDataSrc : b.memDataSrc = .reg2
  regRaddr1Src : b.regRaddr1Src = .r2
  regRaddr2Src : b.regRaddr2Src = .r3

theorem Machine.runBus_storesR3AtR2 {c : Config} {b : BusTuple} (h : b.StoresR3AtR2) (f : Fields) {s : State}
    (hwf : s.mem.wf = true) :
    (∀ flt, checkAddr c (s.reg f.r2) .data s.ip = some flt → runBus c b f s = .fault flt) ∧
    (checkAddr c (s.reg f.r2) .data s.ip = none → ∃ t, runBus c b f s = .next t ∧
      t.mem.word (wordIndex (s.reg f.r2)) =
        merge (s.mem.word (wordIndex (s.reg f.r2))) (s.reg f.r3) (memMask true b.memHalf) ∧
      t.ip = s.ip + 2 ∧ OnlyWord (s.reg f.r2) s t) := by
  have hmaddr : (signals c b f s).maddr = s.reg f.r2 := signals_maddr_of_r2 h.regRaddr1Src h.memAddrSrc
  have hnowrite : (signals c b f s).writesReg = false := (signals_writesReg c b f s).trans h.regWe
  have hused : (signals c b f s).usesData = true := signals_usesData_of_memWe h.memWe
  refine ⟨fun flt hflt => runBus_of_used_fault hused (by rwa [hmaddr]), fun hcheck => ?_⟩
  have hword := commit_word_same (signals c b f s) hwf
  have honly := commit_onlyWord hwf hnowrite
  rw [signals_mmask, h.memWe, signals_mdata_of_r3 h.regRaddr2Src h.memDataSrc, hmaddr] at hword
  rw [hmaddr] at honly
  exact ⟨_, runBus_of_check fun _ => by rwa [hmaddr], hword, commit_ip_of_not_writesReg s hnowrite, honly⟩

/-- Settles O53: under the full mask the merge is the data register, and the next fetch reads the committed memory. -/
theorem routeStoreWord : Obligations.RouteStoreWord := by
  intro c b f s hwf hwe hme hhalf haddr hdata hread1 hread2
  obtain ⟨hfault, hnext⟩ := runBus_storesR3AtR2 (c := c) ⟨hwe, hme, haddr, hdata, hread1, hread2⟩ f hwf
  refine ⟨hfault, fun hcheck => ?_⟩
  obtain ⟨t, hrun, hword, hip, honly⟩ := hnext hcheck
  rw [hhalf] at hword
  have hstored : t.mem.word (wordIndex (s.reg f.r2)) = s.reg f.r3 := hword.trans (merge_maskBoth _ _)
  refine ⟨t, hrun, hstored, hip, honly, fun hfetch hsame => ?_⟩
  rw [← hip] at hfetch hsame
  rw [fetch_of_check hfetch, Memory.read, hsame, hstored]

/-- Settles O54: under the low mask the merge keeps the high byte. -/
theorem routeStoreLowByte : Obligations.RouteStoreLowByte := by
  intro c b f s hwf hwe hme hhalf haddr hdata hread1 hread2
  obtain ⟨hfault, hnext⟩ := runBus_storesR3AtR2 (c := c) ⟨hwe, hme, haddr, hdata, hread1, hread2⟩ f hwf
  refine ⟨hfault, fun hcheck => ?_⟩
  obtain ⟨t, hrun, hword, hip, honly⟩ := hnext hcheck
  rw [hhalf] at hword
  exact ⟨t, hrun, hword.trans (merge_maskLow _ _), hip, honly⟩

/-- Settles O55: the stored data is the IP of the step's start. -/
theorem routeStoreIp : Obligations.RouteStoreIp := by
  rintro c b f s g hwf hme hdata rfl hcheck
  have hmdata : (signals c b f s).mdata = s.ip := by
    rw [signals_mdata, hdata]
    rfl
  refine ⟨_, runBus_of_check fun _ => hcheck, ?_, fun k hk => ?_⟩
  · rw [commit_word_same _ hwf, hmdata]
  · rw [commit_word _ hwf, if_neg hk]

/-- An address that passes the check of one phase passes that of the other. -/
theorem Machine.checkAddr_none_of_phase {c : Config} {a ip : Word} {ph : Phase} (h : checkAddr c a ph ip = none)
    (ph' : Phase) (ip' : Word) : checkAddr c a ph' ip' = none :=
  (checkAddr_none_iff c a ph' ip').mpr ((checkAddr_none_iff c a ph ip).mp h)

/-- Settles O56: the data address is the one the fetch has just passed the check with, and its word is the
instruction. -/
theorem routeIpAddressed : Obligations.RouteIpAddressed := by
  intro c s w b hwf hf hd haddr
  have hmaddr : (signals c b (.ofWord w) s).maddr = s.ip := by
    rw [signals_maddr, haddr]
    rfl
  have hstep := stepWith_of_data_check hf hd fun _ => by
    rw [hmaddr]
    exact checkAddr_none_of_phase hf.check .data s.ip
  refine ⟨_, hstep, ir_of_stepWith_next hf hd hstep, fun hwe hsrc => ?_, fun hme hhalf hdata => ?_⟩
  · have hwdata : (signals c b (.ofWord w) s).wdata = w := by
      rw [signals_wdata, hsrc, hmaddr, hf.read]
      rfl
    rw [reg_of_stepWith_next hf hd hstep, if_pos ⟨hwe, rfl⟩, hwdata, signals_wmask, hsrc]
    exact merge_maskBoth _ _
  · obtain ⟨-, hword, -⟩ := memoryAfterACommittedStep c s _ w b _ hwf hf hd rfl hstep
    rw [Memory.read, hword, if_pos (by rw [hmaddr]), signals_mmask, signals_mdata, hme, hhalf, hdata]
    exact merge_maskBoth _ _

/-- A tuple that writes neither a register nor memory only advances the IP (R178). -/
theorem Machine.runBus_of_no_write {c : Config} {b : BusTuple} (f : Fields) (s : State) (hwe : b.regWe = false)
    (hme : b.memWe = false) : ∃ t, runBus c b f s = .next t ∧ t.ip = s.ip + 2 ∧ OnlyRegister ipIndex s t := by
  have hnowrite : (signals c b f s).writesReg = false := (signals_writesReg c b f s).trans hwe
  have hunused : (signals c b f s).usesData = false := by
    rw [Signals.usesData, signals_needsRead, signals_mmask, hwe, hme]
    rfl
  have hmem : (commit (signals c b f s) s).mem = s.mem := by
    rw [commit_mem, signals_mmask, hme]
    exact Memory.write_maskNone _ _ _
  refine ⟨_, runBus_of_unused hunused, commit_ip_of_not_writesReg s hnowrite, fun r _ hr => ?_, fun a => ?_, hmem,
    commit_ir _ s, commit_halted _ s⟩
  · rw [commit_reg_of_not_writesReg s hnowrite, if_neg hr]
  · rw [hmem]

/-- Settles O58: the one data address serves the load and the store, and the load's data is a signal of the
start-of-step state. -/
theorem combinedAndEmptyRoutes : Obligations.CombinedAndEmptyRoutes := by
  refine ⟨?_, fun c b f s hwe hme => runBus_of_no_write f s hwe hme⟩
  rintro c b f s g hwf hwe hsrc hme rfl
  have hused : (signals c b f s).usesData = true := signals_usesData_of_memWe hme
  refine ⟨fun flt hflt => runBus_of_used_fault hused hflt, fun hcheck => ?_⟩
  refine ⟨_, runBus_of_check fun _ => hcheck, ?_, commit_word_same _ hwf⟩
  rw [commit_reg, if_pos ⟨(signals_writesReg c b f s).trans hwe, rfl⟩, signals_wmask, signals_wdata, hsrc]
  exact merge_maskBoth _ _

end Sys2Proof
